-- ==== Sys2Proof/Word.lean ====
section
/-! DEFINITION. The word types of the block (00_scope.md R8, R11: every value is unsigned). -/

namespace Sys2Proof

/-- One byte of the MemoryBus, of a message or of a digest (R50, R140). -/
abbrev Byte := BitVec 8

/-- A 16-bit address: of the host command space or of the MemoryBus (R8 `ADDR_WIDTH`), and the contents of the three
2-byte registers. Addition on it wraps modulo 65536 (R53). -/
abbrev Addr := BitVec 16

/-- A value on the host's data port, as the number it stands for. `DATA_WIDTH` is a parameter of at least 16 bits (R8,
R81), and every rule uses the value as a number (`data == 1`, `data mod 2^16`, zero extension: R85, R86), so one model
covers every width. DESIGN CHOICE, safe: notes/assumptions/4.md. -/
abbrev Data := Nat

end Sys2Proof
end

