-- ==== Sys2Proof/Config.lean ====
section
/-! DEFINITION. The parameters of 00_scope.md R8: the fixed ones with their values, the open ones as constants without a
body, so that no proof can learn their value. -/

namespace Sys2Proof

/-- `MEM_SIZE`: the MemoryBus has 65536 bytes (R8, R50). -/
abbrev Config.memSize : Nat := 65536

/-- `BLOCK_BYTES` (R8): a block is 64 bytes. -/
abbrev Config.blockBytes : Nat := 64

/-- `DIGEST_BYTES` (R8): a digest is 20 bytes. -/
abbrev Config.digestBytes : Nat := 20

/-- `DATA_WIDTH` of the packed word of the opcode table (R83). The meanings hold for every width (notes/assumptions/4.md);
only the packed word needs one. -/
abbrev Config.dataWidth : Nat := 16

/-- `BR_WIDTH` (R8, R28): the spec's default, 17 bits, the least it allows. DESIGN CHOICE: notes/assumptions/5.md. -/
abbrev Config.brWidth : Nat := 17

/-- `H` (R140): the hash of the message submitted so far, a total function of which nothing else is known. A free value:
notes/assumptions/8.md. -/
opaque Config.hash : List Byte → Vector Byte Config.digestBytes

/-- `HASH_RESET_ON_START` (R143): open. A free value: notes/assumptions/9.md. -/
opaque Config.hashResetOnStart : Bool

/-- `RESET_RD_ADDR` (R38): an open draw. A free value: notes/assumptions/6.md. -/
opaque Config.resetRdAddr : Addr

/-- `RESET_WR_ADDR` (R38): an open draw. A free value: notes/assumptions/6.md. -/
opaque Config.resetWrAddr : Addr

/-- `RESET_LEN` (R38): an open draw. A free value: notes/assumptions/6.md. -/
opaque Config.resetLen : BitVec 16

/-- The MemoryBus contents at power-on, by address: "an arbitrary draw" (R50). A free value: notes/assumptions/7.md. -/
opaque Config.memDraw : Nat → Byte

end Sys2Proof
end

