-- ==== Sys2Proof/Syntax.lean ====
section
/-! DEFINITION. The inputs of the block as syntax: the five registers, the five pipeline states, one constructor of Instr
for each row of spec/opcode_table.json, and the encoded forms (30_encoding.md). -/

namespace Sys2Proof

/-- The five host-addressable registers (10_state.md R21). -/
inductive HostReg where
  | start
  | state
  | rdAddr
  | wrAddr
  | len
deriving DecidableEq, Repr

/-- The enumeration PipelineState (10_state.md R22). -/
inductive PipelineState where
  | idle
  | readBlock
  | compute1
  | compute2
  | writeDigest
deriving DecidableEq, Repr

/-- One constructor per row of the opcode table (R95). An operand the hardware ignores is kept as an operand, so that no
field of a transaction is lost. -/
inductive Instr where
  | nop (addr : Addr) (data : Data)
  | rdStart (data : Data)
  | rdState (data : Data)
  | rdRdAddr (data : Data)
  | rdWrAddr (data : Data)
  | rdLen (data : Data)
  | rdUnmapped (addr : Addr) (data : Data)
  | wrStartGo
  | wrStartOther (data : Data)
  | wrState (data : Data)
  | wrRdAddr (data : Data)
  | wrWrAddr (data : Data)
  | wrLen (data : Data)
  | wrUnmapped (addr : Addr) (data : Data)
  | cmdReserved (addr : Addr) (data : Data)
  | uIdle
  | uReadBlock
  | uCompute1
  | uCompute2
  | uWriteDigest
  | uInvalid (code : BitVec 8)
deriving DecidableEq, Repr

/-- An encoded input for a data port of `dw` bits: the packed transaction {cmd, addr, data} (R83: 34 bits when `dw` is 16;
with a wider port the other fields move up), or a micro-step selector (R80, R87). -/
inductive InputWord (dw : Nat) where
  | ht (word : BitVec (2 + 16 + dw))
  | us (code : BitVec 8)
deriving DecidableEq, Repr

/-- Why a byte string is no input: R80 and R94 leave exactly two lengths, and R83 no bit above bit 33. -/
inductive DecodeError where
  | noSuchLength
  | strayBitsAboveWord
deriving DecidableEq, Repr

/-- One HT row of the opcode table (R95): a word matches when its masked bits are the pattern. -/
structure OpcodeRow where
  mnemonic : String
  pattern  : BitVec 34
  mask     : BitVec 34
deriving DecidableEq, Repr

end Sys2Proof
end

