-- ==== Sys2Proof/WellFormed.lean ====
section
/-! DEFINITION. Which terms of Instr stand for an input of the hardware: those whose operands an encoding can hold and whose
row is the one the table's priorities give (30_encoding.md R81, R84, R95). -/

namespace Sys2Proof

/-- A data value fits a port of `dw` bits (R81). -/
def dataFits (dw : Nat) (data : Data) : Bool := decide (data < 2 ^ dw)

/-- No register is at this command address (R84: exact match against five addresses). -/
def unmappedAddr (addr : Addr) : Bool :=
  addr != 0xFE00#16 && addr != 0xFE01#16 && addr != 0xFE02#16 && addr != 0xFE04#16 && addr != 0xFE06#16

/-- The instruction is one that a block with a data port of `dw` bits can be given. -/
def Instr.wfAt (dw : Nat) : Instr → Bool
  | .nop _ data => dataFits dw data
  | .rdStart data => dataFits dw data
  | .rdState data => dataFits dw data
  | .rdRdAddr data => dataFits dw data
  | .rdWrAddr data => dataFits dw data
  | .rdLen data => dataFits dw data
  | .rdUnmapped addr data => unmappedAddr addr && dataFits dw data
  | .wrStartGo => true
  | .wrStartOther data => decide (data ≠ 1) && dataFits dw data
  | .wrState data => dataFits dw data
  | .wrRdAddr data => dataFits dw data
  | .wrWrAddr data => dataFits dw data
  | .wrLen data => dataFits dw data
  | .wrUnmapped addr data => unmappedAddr addr && dataFits dw data
  | .cmdReserved _ data => dataFits dw data
  | .uIdle => true
  | .uReadBlock => true
  | .uCompute1 => true
  | .uCompute2 => true
  | .uWriteDigest => true
  | .uInvalid code => decide (5 ≤ code.toNat)

/-- Well-formedness at the opcode table's width (R83). -/
def Instr.wf (i : Instr) : Bool := i.wfAt Config.dataWidth

end Sys2Proof
end

