-- ==== Sys2Proof/Decode.lean ====
section
/-! DEFINITION. From fields to an instruction and back (30_encoding.md). Decoding an input word is total: every transaction
and every selector code has a row (R95). Only a byte string of another shape is rejected, by name. -/

namespace Sys2Proof

/-- The 8-bit code of a pipeline state (R88, the spec's decision D6). -/
def PipelineState.code : PipelineState → BitVec 8
  | .idle => 0#8
  | .readBlock => 1#8
  | .compute1 => 2#8
  | .compute2 => 3#8
  | .writeDigest => 4#8

/-- The pipeline state a code stands for; none for 5 to 255 (R88, R92). -/
def PipelineState.ofCode (code : BitVec 8) : Option PipelineState :=
  if code = PipelineState.idle.code then some .idle
  else if code = PipelineState.readBlock.code then some .readBlock
  else if code = PipelineState.compute1.code then some .compute1
  else if code = PipelineState.compute2.code then some .compute2
  else if code = PipelineState.writeDigest.code then some .writeDigest
  else none

/-- Register addresses (R21). -/
def HostReg.addr : HostReg → Addr
  | .start => 0xFE00#16
  | .state => 0xFE01#16
  | .rdAddr => 0xFE02#16
  | .wrAddr => 0xFE04#16
  | .len => 0xFE06#16

/-- Register widths in bytes (R21). -/
def HostReg.bytes : HostReg → Nat
  | .start => 1
  | .state => 1
  | .rdAddr => 2
  | .wrAddr => 2
  | .len => 2

/-- Command tag codes (R82, the spec's decision D2): NoOp 0, Read 1, Write 2; 3 is reserved (R89). -/
def tagNoOp : BitVec 2 := 0#2
def tagRead : BitVec 2 := 1#2
def tagWrite : BitVec 2 := 2#2
def tagReserved : BitVec 2 := 3#2

/-- Address decode: an exact 16-bit match, no aliases, no partial decode (R84). -/
def decodeReg (addr : Addr) : Option HostReg :=
  if addr = HostReg.start.addr then some .start
  else if addr = HostReg.state.addr then some .state
  else if addr = HostReg.rdAddr.addr then some .rdAddr
  else if addr = HostReg.wrAddr.addr then some .wrAddr
  else if addr = HostReg.len.addr then some .len
  else none

/-- The Read rows (R100, R103 to R108). -/
def decodeRead (addr : Addr) (data : Data) : Instr :=
  match decodeReg addr with
  | some .start => .rdStart data
  | some .state => .rdState data
  | some .rdAddr => .rdRdAddr data
  | some .wrAddr => .rdWrAddr data
  | some .len => .rdLen data
  | none => .rdUnmapped addr data

/-- The Write rows (R100, R110 to R116). The whole of `data` is compared with 1, before any masking (R85). -/
def decodeWrite (addr : Addr) (data : Data) : Instr :=
  match decodeReg addr with
  | some .start => if data = 1 then .wrStartGo else .wrStartOther data
  | some .state => .wrState data
  | some .rdAddr => .wrRdAddr data
  | some .wrAddr => .wrWrAddr data
  | some .len => .wrLen data
  | none => .wrUnmapped addr data

/-- The dispatch of a macro step on its three inputs (R100). The gate of R109 is in the meanings of the Write rows. -/
def decodeTransaction (cmd : BitVec 2) (addr : Addr) (data : Data) : Instr :=
  if cmd = tagNoOp then .nop addr data
  else if cmd = tagRead then decodeRead addr data
  else if cmd = tagWrite then decodeWrite addr data
  else .cmdReserved addr data

/-- The dispatch of a micro step on the `state` code (R87, R144). -/
def decodeMicro (code : BitVec 8) : Instr :=
  match PipelineState.ofCode code with
  | some .idle => .uIdle
  | some .readBlock => .uReadBlock
  | some .compute1 => .uCompute1
  | some .compute2 => .uCompute2
  | some .writeDigest => .uWriteDigest
  | none => .uInvalid code

/-! ## Packed words (R83) -/

/-- `{cmd, addr, data}` with the data field `dw` bits wide. -/
def packTransaction (dw : Nat) (cmd : BitVec 2) (addr : Addr) (data : Data) : BitVec (2 + 16 + dw) :=
  cmd ++ addr ++ BitVec.ofNat dw data

/-- Bits 33:32 of the 34-bit word. -/
def wordCmd (dw : Nat) (word : BitVec (2 + 16 + dw)) : BitVec 2 := word.extractLsb' (16 + dw) 2

/-- Bits 31:16 of the 34-bit word. -/
def wordAddr (dw : Nat) (word : BitVec (2 + 16 + dw)) : Addr := word.extractLsb' dw 16

/-- Bits 15:0 of the 34-bit word. -/
def wordData (dw : Nat) (word : BitVec (2 + 16 + dw)) : Data := (word.extractLsb' 0 dw).toNat

/-- Decode an input word. Total: R94, R95. -/
def decode (dw : Nat) : InputWord dw → Instr
  | .ht word => decodeTransaction (wordCmd dw word) (wordAddr dw word) (wordData dw word)
  | .us code => decodeMicro code

/-- The input word of an instruction (R82, R83, R88, R95). -/
def encode (dw : Nat) : Instr → InputWord dw
  | .nop addr data => .ht (packTransaction dw tagNoOp addr data)
  | .rdStart data => .ht (packTransaction dw tagRead HostReg.start.addr data)
  | .rdState data => .ht (packTransaction dw tagRead HostReg.state.addr data)
  | .rdRdAddr data => .ht (packTransaction dw tagRead HostReg.rdAddr.addr data)
  | .rdWrAddr data => .ht (packTransaction dw tagRead HostReg.wrAddr.addr data)
  | .rdLen data => .ht (packTransaction dw tagRead HostReg.len.addr data)
  | .rdUnmapped addr data => .ht (packTransaction dw tagRead addr data)
  | .wrStartGo => .ht (packTransaction dw tagWrite HostReg.start.addr 1)
  | .wrStartOther data => .ht (packTransaction dw tagWrite HostReg.start.addr data)
  | .wrState data => .ht (packTransaction dw tagWrite HostReg.state.addr data)
  | .wrRdAddr data => .ht (packTransaction dw tagWrite HostReg.rdAddr.addr data)
  | .wrWrAddr data => .ht (packTransaction dw tagWrite HostReg.wrAddr.addr data)
  | .wrLen data => .ht (packTransaction dw tagWrite HostReg.len.addr data)
  | .wrUnmapped addr data => .ht (packTransaction dw tagWrite addr data)
  | .cmdReserved addr data => .ht (packTransaction dw tagReserved addr data)
  | .uIdle => .us PipelineState.idle.code
  | .uReadBlock => .us PipelineState.readBlock.code
  | .uCompute1 => .us PipelineState.compute1.code
  | .uCompute2 => .us PipelineState.compute2.code
  | .uWriteDigest => .us PipelineState.writeDigest.code
  | .uInvalid code => .us code

/-- The mnemonic of an instruction's row in the opcode table (R95). -/
def Instr.mnemonic : Instr → String
  | .nop _ _ => "NOP"
  | .rdStart _ => "RD_START"
  | .rdState _ => "RD_STATE"
  | .rdRdAddr _ => "RD_RDADDR"
  | .rdWrAddr _ => "RD_WRADDR"
  | .rdLen _ => "RD_LEN"
  | .rdUnmapped _ _ => "RD_UNMAPPED"
  | .wrStartGo => "WR_START_GO"
  | .wrStartOther _ => "WR_START_OTHER"
  | .wrState _ => "WR_STATE"
  | .wrRdAddr _ => "WR_RDADDR"
  | .wrWrAddr _ => "WR_WRADDR"
  | .wrLen _ => "WR_LEN"
  | .wrUnmapped _ _ => "WR_UNMAPPED"
  | .cmdReserved _ _ => "CMD_RESERVED"
  | .uIdle => "U_IDLE"
  | .uReadBlock => "U_READBLOCK"
  | .uCompute1 => "U_COMPUTE1"
  | .uCompute2 => "U_COMPUTE2"
  | .uWriteDigest => "U_WRITEDIGEST"
  | .uInvalid _ => "U_INVALID"

/-- The HT rows of spec/opcode_table.json with their match and mask columns, in an order that keeps the table's
priorities (R95: first match wins; priority 1 before 2 before 3). -/
def htRows : List OpcodeRow :=
  [ ⟨"NOP", 0x000000000#34, 0x300000000#34⟩, ⟨"RD_START", 0x1FE000000#34, 0x3FFFF0000#34⟩,
    ⟨"RD_STATE", 0x1FE010000#34, 0x3FFFF0000#34⟩, ⟨"RD_RDADDR", 0x1FE020000#34, 0x3FFFF0000#34⟩,
    ⟨"RD_WRADDR", 0x1FE040000#34, 0x3FFFF0000#34⟩, ⟨"RD_LEN", 0x1FE060000#34, 0x3FFFF0000#34⟩,
    ⟨"WR_START_GO", 0x2FE000001#34, 0x3FFFFFFFF#34⟩, ⟨"WR_STATE", 0x2FE010000#34, 0x3FFFF0000#34⟩,
    ⟨"WR_RDADDR", 0x2FE020000#34, 0x3FFFF0000#34⟩, ⟨"WR_WRADDR", 0x2FE040000#34, 0x3FFFF0000#34⟩,
    ⟨"WR_LEN", 0x2FE060000#34, 0x3FFFF0000#34⟩, ⟨"CMD_RESERVED", 0x300000000#34, 0x300000000#34⟩ ] ++
  [ ⟨"RD_UNMAPPED", 0x100000000#34, 0x300000000#34⟩, ⟨"WR_START_OTHER", 0x2FE000000#34, 0x3FFFF0000#34⟩ ] ++
  [ ⟨"WR_UNMAPPED", 0x200000000#34, 0x300000000#34⟩ ]

/-- The row a word selects: the first whose masked bits match (R95). -/
def tableRow (word : BitVec 34) : Option OpcodeRow := htRows.find? fun r => decide (word &&& r.mask = r.pattern)

/-! ## Byte strings, for the opcode table's rows (notes/assumptions/14.md) -/

/-- The value of a byte string, first byte least significant. -/
def bytesValue : List Byte → Nat
  | [] => 0
  | b :: bs => b.toNat + 256 * bytesValue bs

/-- `n` bytes of a value, least significant first. -/
def valueBytes : Nat → Nat → List Byte
  | 0, _ => []
  | n + 1, v => BitVec.ofNat 8 v :: valueBytes n (v / 256)

/-- Bytes in a packed transaction at the table's width: 34 bits take five. -/
def htBytes : Nat := 5

/-- One byte is a micro-step selector, five are a packed transaction; any other string is no input (R80, R94). -/
def decodeBytes (bs : List Byte) : Except DecodeError Instr :=
  match bs with
  | [code] => .ok (decode Config.dataWidth (.us code))
  | _ =>
    if bs.length ≠ htBytes then .error .noSuchLength
    else if 2 ^ 34 ≤ bytesValue bs then .error .strayBitsAboveWord
    else .ok (decode Config.dataWidth (.ht (BitVec.ofNat 34 (bytesValue bs))))

/-- The bytes of an instruction at the table's width. -/
def encodeBytes (i : Instr) : List Byte :=
  match encode Config.dataWidth i with
  | .ht word => valueBytes htBytes word.toNat
  | .us code => [code]

/-- The instruction the decoder reads from a row's bits as spec/opcode_table.json numbers them. -/
def decodeTableWord (nbits w : Nat) : Option Instr :=
  match decodeBytes (valueBytes ((nbits + 7) / 8) w) with
  | .ok i => some i
  | .error _ => none

end Sys2Proof
end

