-- ==== Sys2Proof/Machine/State.lean ====
section
/-! DEFINITION. The state of one device instance with its MemoryBus (10_state.md R20 to R31, 20_memory.md R50), the inputs
that stand before it, the reasons of REFUSE and FAULT with their marks (60_exceptions.md section 5), and the state after reset (R38, R200). -/

namespace Sys2Proof.Machine

/-- The MemoryBus: the bytes that differ from the power-on draw, by strictly rising address (Machine/Ops.lean: wf, read,
write). An unlisted address reads as Config.memDraw of it (notes/assumptions/7.md). -/
abbrev Memory := List Host.Cell

/-- One step of one agent (R9), or a reset (R200). -/
inductive Input where
  /-- A Host step: one bus transaction with its three inputs (R81, R83: the hardware has three separate inputs). -/
  | host (cmd : BitVec 2) (addr : Addr) (data : Data)
  /-- A Pipeline step: one micro step (R144). -/
  | tick
  /-- An Environment step that reads one MemoryBus byte (R9, R56). -/
  | envRead (addr : Addr)
  /-- An Environment step that writes one MemoryBus byte (R9, R56). -/
  | envWrite (addr : Addr) (value : Byte)
  /-- Reset (R200, the spec's decision D29). -/
  | reset
deriving DecidableEq, Repr

/-- The reasons of FAULT (R187). -/
inductive Fault where
  /-- Recorded by the meaning of U_INVALID in `faultMark`: a micro step at a `state` code 5 to 255 (R92, R187). No run from
  reset reaches it. Safe for a claim that asks for an unmarked end, unsafe for one that does not (notes/assumptions/12.md). -/
  | invalidPipelineState
deriving DecidableEq, Repr

/-- The reasons of REFUSE (R186), and the reason of an arm without a meaning. -/
inductive Refusal where
  /-- For an arm of exec that has no meaning yet (none in this model). Safe: nothing follows it. -/
  | notModelled (mnemonic : String)
  /-- Recorded by the meaning of CMD_RESERVED in `refusalMark`: command tag 3 (R89, R186). Safe for a claim that asks for an
  unmarked end, unsafe for one that does not (notes/assumptions/11.md). -/
  | reservedCommandTag
deriving DecidableEq, Repr

/-- The state record of R20, the MemoryBus of R50, the two marks of R186 and R187, and three fields of the model's own
(notes/assumptions/1.md to 3.md). -/
structure State where
  /-- `state`, R22: 8 bits, so that a corrupted code can be held (R92). -/
  state : BitVec 8
  /-- `rd_addr`, R24. -/
  rdAddr : Addr
  /-- `wr_addr`, R25. -/
  wrAddr : Addr
  /-- `len`, R26. -/
  len : BitVec 16
  /-- `bytes_read`, R28. -/
  bytesRead : BitVec Config.brWidth
  /-- `block_buffer`, R29. -/
  blockBuffer : BitVec 512
  /-- `digest_buffer`, R30. -/
  digestBuffer : BitVec 160
  /-- `hash_msg`, R31: every byte submitted since the primitive was created or reinitialised. -/
  hashMsg : List Byte
  /-- The MemoryBus, R50. -/
  mem : Memory
  /-- The mark of a refused step, R186: the reason, kept for the rest of the run (notes/assumptions/11.md). -/
  refusalMark : Option Refusal
  /-- The mark of a faulted step, R187: the reason, kept for the rest of the run (notes/assumptions/12.md). -/
  faultMark : Option Fault
  /-- The model's own: the data value the last macro step returned (R13, R100). -/
  out : Data
  /-- The model's own: the byte the last Environment read returned (R9, R51). -/
  envData : Byte
  /-- The model's own: the agents' coming steps, oldest first (R65); when it is empty the Pipeline steps (R205). -/
  pending : List Input
deriving DecidableEq, Repr

/-- What a step or a meaning answers. -/
abbrev Result := Host.Outcome State Fault Refusal

/-- The machine right after reset: R38 for the fields of R20, with the three open draws (notes/assumptions/6.md); nothing
listed in memory; no mark, since nothing was refused or faulted; nothing returned yet and nothing
pending (DESIGN CHOICE: notes/assumptions/1.md, 2.md, 3.md). -/
def State.reset : State where
  state := PipelineState.idle.code
  rdAddr := Config.resetRdAddr
  wrAddr := Config.resetWrAddr
  len := Config.resetLen
  bytesRead := 0
  blockBuffer := 0
  digestBuffer := 0
  hashMsg := []
  mem := []
  refusalMark := none
  faultMark := none
  out := 0
  envData := 0
  pending := []

end Sys2Proof.Machine
end

