-- ==== Sys2Proof/Machine/Ops.lean ====
section
/-! DEFINITION. The operations the meanings share: the MemoryBus, byte fields of a wide value, the answers of a macro step,
the hash boundary, arming the pipeline, the model-level outcomes, reset. The block has no exception, so there is no operation that takes one and none
that returns from one (60_exceptions.md R180, R184, R185). -/

namespace Sys2Proof.Machine

/-! ## The MemoryBus (20_memory.md) -/

/-- What an address that nothing lists reads as: the power-on draw (R50, R51; notes/assumptions/7.md). -/
def Memory.unlisted (a : Nat) : Byte := Config.memDraw a

/-- The canonical form from address `lo` up: addresses strictly rise and lie in the address space, and no entry equals what
an unlisted address reads as. -/
def Memory.wfFrom : Nat → Memory → Bool
  | _, [] => true
  | lo, (a, v) :: m => decide (lo ≤ a) && decide (a < Config.memSize) && (v != Memory.unlisted a) && Memory.wfFrom (a + 1) m

/-- The canonical form, so that equal memories are equal lists. -/
def Memory.wf (m : Memory) : Bool := Memory.wfFrom 0 m

/-- One byte at an address key. -/
def Memory.get : Memory → Nat → Byte
  | [], a => Memory.unlisted a
  | (b, v) :: m, a => if a = b then v else Memory.get m a

/-- Put an entry at its place. -/
def Memory.insert : Memory → Nat → Byte → Memory
  | [], a, v => [(a, v)]
  | (b, w) :: m, a, v =>
    if a < b then (a, v) :: (b, w) :: m
    else if a = b then (a, v) :: m
    else (b, w) :: Memory.insert m a v

/-- Drop what is listed at an address. -/
def Memory.erase : Memory → Nat → Memory
  | [], _ => []
  | (b, w) :: m, a => if a = b then Memory.erase m a else (b, w) :: Memory.erase m a

/-- Set one byte; writing what an unlisted address reads as removes the entry. -/
def Memory.set (m : Memory) (a : Nat) (v : Byte) : Memory :=
  if v = Memory.unlisted a then Memory.erase m a else Memory.insert m a v

/-- `MemRead(a, 1)` (R12, R51): every access is one byte (R52). -/
def Memory.read (m : Memory) (a : Addr) : Byte := Memory.get m a.toNat

/-- `MemWrite(a, 1, v)` (R12, R51). -/
def Memory.write (m : Memory) (a : Addr) (v : Byte) : Memory := Memory.set m a.toNat v

/-- Several byte writes of one atomic step (R62; their order is not observable where the addresses differ, R63). -/
def Memory.writeAll (m : Memory) (ws : List (Addr × Byte)) : Memory :=
  ws.foldl (fun m w => Memory.write m w.1 w.2) m

/-! ## Byte fields of a wide value (R11) -/

/-- `v[8i+7:8i]`. -/
def byteField {w : Nat} (v : BitVec w) (i : Nat) : Byte := v.extractLsb' (8 * i) 8

/-- The value whose byte field `i` is `f i` for every `i < n`, all else 0: the loop `v[8i+7:8i] <- f i`. -/
def packBytes (w : Nat) : Nat → (Nat → Byte) → BitVec w
  | 0, _ => 0
  | n + 1, f => packBytes w n f ||| ((f n).setWidth w <<< (8 * n))

/-! ## The pipeline position and the answers of a macro step -/

/-- `S.state == Idle`, the gate of R109. -/
def State.isIdle (s : State) : Bool := s.state == PipelineState.idle.code

/-- `S.state <- p`. -/
def State.enter (s : State) (p : PipelineState) : State := { s with state := p.code }

/-- The end of a macro step: `out <- v` (R12, R100). -/
def reply (v : Data) (s : State) : Result := .next { s with out := v }

/-- The common part of every Write (R109): while Idle the effect happens, while busy the write is dropped without a sign;
`out` is 0 either way. -/
def gatedWrite (effect : State → State) (s : State) : Result :=
  if s.isIdle then reply 0 (effect s) else reply 0 s

/-! ## The HashPrimitive boundary (41_pipeline.md R140 to R143) -/

/-- `HashUpdate(m)` (R141). -/
def hashUpdate (m : List Byte) (s : State) : State := { s with hashMsg := s.hashMsg ++ m }

/-- `HashDigest()` (R142): it changes no state. -/
def hashDigest (s : State) : Vector Byte Config.digestBytes := Config.hash s.hashMsg

/-- The hash context just after a start trigger (R110, R143). -/
def hashMsgAtStart (s : State) : List Byte := if Config.hashResetOnStart then [] else s.hashMsg

/-- An accepted start trigger (R110): the pipeline is armed and the operation's counter is 0. -/
def armPipeline (s : State) : State :=
  { s with state := PipelineState.readBlock.code, bytesRead := 0, hashMsg := hashMsgAtStart s }

/-! ## The model-level outcomes (60_exceptions.md section 5) -/

/-- `REFUSE(reason)` (R186): the step does not happen, and the refusal is recorded in a mark that stays, the first reason
with it. -/
def refuseStep (reason : Refusal) (s : State) : State := { s with refusalMark := s.refusalMark.or (some reason) }

/-- `FAULT(reason)` (R187): the step does not happen, and the fault is recorded in a mark that stays. -/
def faultStep (reason : Fault) (s : State) : State := { s with faultMark := s.faultMark.or (some reason) }

/-! ## The Environment and reset -/

/-- An Environment read of one MemoryBus byte (R9, R56). -/
def environmentRead (a : Addr) (s : State) : State := { s with envData := s.mem.read a }

/-- An Environment write of one MemoryBus byte (R9, R56). -/
def environmentWrite (a : Addr) (v : Byte) (s : State) : State := { s with mem := s.mem.write a v }

/-- Reset (R200): every field of R20 takes its value of R38, the MemoryBus is not touched. The marks stay, being
kept for the rest of the run (R186, R187), and so do the model's own fields (DESIGN CHOICE: notes/assumptions/13.md). -/
def resetDevice (s : State) : State :=
  { State.reset with
    mem := s.mem, refusalMark := s.refusalMark, faultMark := s.faultMark
    out := s.out, envData := s.envData, pending := s.pending }

end Sys2Proof.Machine
end

