-- ==== Sys2Proof/Machine/Operands.lean ====
section
/-! DEFINITION. The operands of the commands and micro operations: masking of write data and extension of read data
(30_encoding.md R85, R86), the address generation of the memory-bus sequencer (41_pipeline.md R156), and the block and
digest byte orders (20_memory.md R59, R60). -/

namespace Sys2Proof.Machine

/-- Write data of a 2-byte register: `data mod 2^16` (R27, R85). -/
def maskToRegister (data : Data) : BitVec 16 := BitVec.ofNat 16 data

/-- Read data: the stored value zero-extended (R86); extension does not change the number. -/
def readData {w : Nat} (v : BitVec w) : Data := v.toNat

/-- `base = (rd_addr + bytes_read) mod 65536` (R15, R146). -/
def blockBase (s : State) : Addr := s.rdAddr + s.bytesRead.setWidth 16

/-- The address of the byte that goes to byte field `i` of block_buffer: `(base + 63 - i) mod 65536` (R146). -/
def blockAddr (base : Addr) (i : Nat) : Addr := base + 63#16 - BitVec.ofNat 16 i

/-- The block at `base` as block_buffer holds it: the byte at the lowest address is most significant (R59, R146). -/
def assembleBlock (m : Memory) (base : Addr) : BitVec 512 :=
  packBytes 512 Config.blockBytes fun i => m.read (blockAddr base i)

/-- The 64 bytes fed to the hash: `m[i]` is bits 511-8i to 504-8i (R148 as corrected by conflict C1), which is the block in
increasing address order (R59). -/
def blockMessage (block : BitVec 512) : List Byte :=
  (List.range Config.blockBytes).map fun i => byteField block (63 - i)

/-- Byte `i` of a digest, in the order the primitive produces them (R142). -/
def digestByte (d : Vector Byte Config.digestBytes) (i : Nat) : Byte := d[i]?.getD 0

/-- `digest_buffer[8i+7:8i] <- d[i]` (R30, R148). -/
def packDigest (d : Vector Byte Config.digestBytes) : BitVec 160 :=
  packBytes 160 Config.digestBytes (digestByte d)

/-- Where byte field `i` of digest_buffer is stored: `(wr_addr + 19 - i) mod 65536` (R149). -/
def digestAddr (s : State) (i : Nat) : Addr := s.wrAddr + 19#16 - BitVec.ofNat 16 i

/-- The 20 byte writes of U_WRITEDIGEST (R149, R156). -/
def digestWrites (s : State) : List (Addr × Byte) :=
  (List.range Config.digestBytes).map fun i => (digestAddr s i, byteField s.digestBuffer i)

end Sys2Proof.Machine
end

