-- ==== Sys2Proof/Machine/Flags.lean ====
section
/-! DEFINITION. The block has no flags (10_state.md R36). The one condition it evaluates, which it stores nowhere, stands
here. -/

namespace Sys2Proof.Machine

/-- `bytes_read < len`, unsigned and strict, with `len` zero-extended to the counter's width (R36, R148). -/
def moreBlocks (s : State) : Bool := s.bytesRead.ult (s.len.setWidth Config.brWidth)

end Sys2Proof.Machine
end

