-- ==== Sys2Proof/Machine/HostCommands.lean ====
section
/-! DEFINITION. The host commands: one meaning per HT row (40_host_commands.md). None touches the MemoryBus, the buffers or
the hash, but for the start trigger's hash context (R100, R117). -/

namespace Sys2Proof.Machine

/-- NOP, R101. -/
def execNop (_addr : Addr) (_data : Data) (s : State) : Result := reply 0 s

/-- RD_START, R103: `start` stores nothing. -/
def execRdStart (_data : Data) (s : State) : Result := reply 0 s

/-- RD_STATE, R104. -/
def execRdState (_data : Data) (s : State) : Result := reply (readData s.state) s

/-- RD_RDADDR, R105. -/
def execRdRdAddr (_data : Data) (s : State) : Result := reply (readData s.rdAddr) s

/-- RD_WRADDR, R106. -/
def execRdWrAddr (_data : Data) (s : State) : Result := reply (readData s.wrAddr) s

/-- RD_LEN, R107. -/
def execRdLen (_data : Data) (s : State) : Result := reply (readData s.len) s

/-- RD_UNMAPPED, R108: 0, whatever the MemoryBus byte at that address is (R55). -/
def execRdUnmapped (_addr : Addr) (_data : Data) (s : State) : Result := reply 0 s

/-- WR_START_GO, R110, gated by R109. -/
def execWrStartGo (s : State) : Result := gatedWrite armPipeline s

/-- WR_START_OTHER, R111: no effect. -/
def execWrStartOther (_data : Data) (s : State) : Result := gatedWrite id s

/-- WR_STATE, R112: no effect (conflict C3). -/
def execWrState (_data : Data) (s : State) : Result := gatedWrite id s

/-- WR_RDADDR, R113, gated by R109. -/
def execWrRdAddr (data : Data) (s : State) : Result :=
  gatedWrite (fun s => { s with rdAddr := maskToRegister data }) s

/-- WR_WRADDR, R114, gated by R109. -/
def execWrWrAddr (data : Data) (s : State) : Result :=
  gatedWrite (fun s => { s with wrAddr := maskToRegister data }) s

/-- WR_LEN, R115, gated by R109. -/
def execWrLen (data : Data) (s : State) : Result :=
  gatedWrite (fun s => { s with len := maskToRegister data }) s

/-- WR_UNMAPPED, R116: no effect, on no register and on no MemoryBus byte. -/
def execWrUnmapped (_addr : Addr) (_data : Data) (s : State) : Result := gatedWrite id s

/-- CMD_RESERVED, R89: the transaction is refused by name and marked; nothing is returned, so `out` stays (R186). -/
def execCmdReserved (_addr : Addr) (_data : Data) (s : State) : Result := .next (refuseStep .reservedCommandTag s)

end Sys2Proof.Machine
end

