-- ==== Sys2Proof/Machine/Pipeline.lean ====
section
/-! DEFINITION. The micro operations: one meaning per US row (41_pipeline.md). Which one a micro step performs is the
dispatch of Machine/Step.lean on `state` (R87, R144); a meaning is the operation it selects (notes/assumptions/15.md). A
micro step returns no data, so `out` stays. -/

namespace Sys2Proof.Machine

/-- U_IDLE, R145: no work. -/
def execUIdle (s : State) : Result := .next s

/-- U_READBLOCK, R146. -/
def execUReadBlock (s : State) : Result :=
  .next { s.enter .compute1 with
    blockBuffer := assembleBlock s.mem (blockBase s)
    bytesRead := s.bytesRead + BitVec.ofNat Config.brWidth Config.blockBytes }

/-- U_COMPUTE1, R147: a one-cycle latency stage. -/
def execUCompute1 (s : State) : Result := .next (s.enter .compute2)

/-- The update and digest of U_COMPUTE2 (R148): the block goes to the hash in memory order, the digest of the whole message
goes to digest_buffer. -/
def absorbBlock (s : State) : State :=
  let t := hashUpdate (blockMessage s.blockBuffer) s
  { t with digestBuffer := packDigest (hashDigest t) }

/-- U_COMPUTE2, R148. -/
def execUCompute2 (s : State) : Result :=
  .next ((absorbBlock s).enter (if moreBlocks s then .readBlock else .writeDigest))

/-- U_WRITEDIGEST, R149. -/
def execUWriteDigest (s : State) : Result :=
  .next { s.enter .idle with mem := s.mem.writeAll (digestWrites s) }

/-- U_INVALID, R92: `state` codes 5 to 255 are a state the spec defines as broken; the micro step faults and is marked
(R187). -/
def execUInvalid (_code : BitVec 8) (s : State) : Result := .next (faultStep .invalidPipelineState s)

end Sys2Proof.Machine
end

