-- ==== Sys2Proof/Machine/Dispatch.lean ====
section
/-! DEFINITION. One arm per row of spec/opcode_table.json. -/

namespace Sys2Proof.Machine

open Host

def exec (i : Instr) (s : State) : Host.Outcome State Fault Refusal :=
  match i with
  | .nop addr data => Sys2Proof.Machine.execNop addr data s
  | .rdStart data => Sys2Proof.Machine.execRdStart data s
  | .rdState data => Sys2Proof.Machine.execRdState data s
  | .rdRdAddr data => Sys2Proof.Machine.execRdRdAddr data s
  | .rdWrAddr data => Sys2Proof.Machine.execRdWrAddr data s
  | .rdLen data => Sys2Proof.Machine.execRdLen data s
  | .rdUnmapped addr data => Sys2Proof.Machine.execRdUnmapped addr data s
  | .wrStartGo => Sys2Proof.Machine.execWrStartGo s
  | .wrStartOther data => Sys2Proof.Machine.execWrStartOther data s
  | .wrState data => Sys2Proof.Machine.execWrState data s
  | .wrRdAddr data => Sys2Proof.Machine.execWrRdAddr data s
  | .wrWrAddr data => Sys2Proof.Machine.execWrWrAddr data s
  | .wrLen data => Sys2Proof.Machine.execWrLen data s
  | .wrUnmapped addr data => Sys2Proof.Machine.execWrUnmapped addr data s
  | .cmdReserved addr data => Sys2Proof.Machine.execCmdReserved addr data s
  | .uIdle => Sys2Proof.Machine.execUIdle s
  | .uReadBlock => Sys2Proof.Machine.execUReadBlock s
  | .uCompute1 => Sys2Proof.Machine.execUCompute1 s
  | .uCompute2 => Sys2Proof.Machine.execUCompute2 s
  | .uWriteDigest => Sys2Proof.Machine.execUWriteDigest s
  | .uInvalid code => Sys2Proof.Machine.execUInvalid code s

end Sys2Proof.Machine
end

