-- ==== Sys2Proof/Machine/Fetch.lean ====
section
/-! DEFINITION. Which agent steps next (00_scope.md R9, notes/assumptions/1.md), and placing an opcode-table word where the
next step takes its instruction (notes/assumptions/17.md). -/

namespace Sys2Proof.Machine

/-- The next step in the total order (R65). When no agent's step is listed the Pipeline steps: a micro step may be taken at
any time and, while busy, is eventually taken (R144, R205). -/
def nextInput (s : State) : Input :=
  match s.pending with
  | [] => .tick
  | e :: _ => e

/-- The state that the step acts on: the step is taken off the list. -/
def consumeInput (s : State) : State := { s with pending := s.pending.tail }

/-- The transaction a packed word of the opcode table stands for (R83). -/
def inputOfWord (word : BitVec 34) : Input :=
  .host (wordCmd Config.dataWidth word) (wordAddr Config.dataWidth word) (wordData Config.dataWidth word)

/-- Up to 8 bits are a micro-step selector: `state` is set and a Pipeline step comes next (R87). More are a packed
transaction: it comes next as a Host step (R83). -/
def placeWord (s : State) (nbits w : Nat) : State :=
  if nbits ≤ 8 then { s with state := BitVec.ofNat 8 w, pending := .tick :: s.pending }
  else { s with pending := inputOfWord (BitVec.ofNat 34 w) :: s.pending }

end Sys2Proof.Machine
end

