-- ==== Sys2Proof/Machine/Step.lean ====
section
/-! DEFINITION. One step of the machine: the next agent's step, taken whole (20_memory.md R62). -/

namespace Sys2Proof.Machine

/-- A Host step runs the transaction's row (R100), a Pipeline step the row that `state` selects (R144), an Environment step
one byte access (R9), a reset R200. -/
def step (s : State) : Host.Outcome State Fault Refusal :=
  match nextInput s with
  | .host cmd addr data => exec (decodeTransaction cmd addr data) (consumeInput s)
  | .tick => exec (decodeMicro s.state) (consumeInput s)
  | .envRead addr => .next (environmentRead addr (consumeInput s))
  | .envWrite addr value => .next (environmentWrite addr value (consumeInput s))
  | .reset => .next (resetDevice (consumeInput s))

/-- `s` with an opcode-table word placed so that the very next step runs it (notes/assumptions/17.md). -/
def State.withFetchWord (s : State) (nbits w : Nat) : State := placeWord s nbits w

end Sys2Proof.Machine
end

