-- ==== Sys2Proof/Safety.lean ====
section
/-! DEFINITION. What a safe run is, in the terms the statements use: the unmarked end of a run, the invariant of the reachable states, the number of
blocks of an operation (41_pipeline.md R150), and the bytes it submits (R151). -/

namespace Sys2Proof.Machine

/-- `state` holds one of the five PipelineState codes (R32). -/
def State.legal (s : State) : Bool := (PipelineState.ofCode s.state).isSome

/-- `state` holds the code of `p`. -/
def State.at (s : State) (p : PipelineState) : Prop := s.state = p.code

/-- `n(L) = max(1, ceil(L / 64))` (R150). -/
def blockCount (len : Nat) : Nat := max 1 ((len + 63) / 64)

/-- The bytes at `start + j` (modulo 65536) for `j < n`, in order (R151). -/
def messageBytes (m : Memory) (start : Addr) (n : Nat) : List Byte :=
  (List.range n).map fun j => m.read (start + BitVec.ofNat 16 j)

/-- What R186 and R187 ask of the end of a run that ends well: no step of it was refused, and none faulted. -/
def State.endsWell (s : State) : Prop := s.refusalMark = none ∧ s.faultMark = none

/-- The invariant that every step keeps. Each field says which rule it comes from. -/
structure State.Inv (s : State) : Prop where
  /-- R32. -/
  legal : s.legal = true
  /-- R187, R92: no run from reset has faulted. -/
  noFault : s.faultMark = none
  /-- The memory is in canonical form. -/
  memWf : s.mem.wf = true
  /-- R86: a returned value fits a register's 16 bits. -/
  outFits : s.out < 65536
  /-- R28, R34: `bytes_read` counts whole blocks. -/
  wholeBlocks : s.bytesRead.toNat % 64 = 0
  /-- R211: it never passes 65536. -/
  bounded : s.bytesRead.toNat ≤ 65536
  /-- R148, R150: a block is read only when it is the first or the message goes on. -/
  reading : s.at .readBlock → s.bytesRead = 0 ∨ s.bytesRead.toNat < s.len.toNat
  /-- R146: after a ReadBlock, the counter is one block past such a position. -/
  computing : s.at .compute1 ∨ s.at .compute2 →
    64 ≤ s.bytesRead.toNat ∧ (s.bytesRead.toNat = 64 ∨ s.bytesRead.toNat - 64 < s.len.toNat)
  /-- R150: at WriteDigest the operation has read its `n(len)` blocks. -/
  writing : s.at .writeDigest → s.bytesRead.toNat = 64 * blockCount s.len.toNat
  /-- R148: at WriteDigest, digest_buffer holds the digest of the message submitted so far. -/
  digest : s.at .writeDigest → s.digestBuffer = packDigest (Config.hash s.hashMsg)
  /-- R141: only whole blocks are submitted. -/
  hashBlocks : s.hashMsg.length % 64 = 0

end Sys2Proof.Machine
end

