-- ==== Sys2Proof/Certificates/Slice0/Obligations.lean ====
section
/-! DEFINITION. The statements for the provers. A docstring names the rule a statement formalises. Where a rule is marked in
the spec as a decision or an inference of its own, the docstring says so. -/

open Sys2Proof Sys2Proof.Machine

/-! ## Reset -/

/-- 10_state.md section 6 (R38, the spec's decisions D15 to D18): the values after reset. The three draws are the named
constants of notes/assumptions/6.md, and memory lists nothing (7.md). Neither mark of R186 and R187 is set. `out`, `envData`,
`pending` are the model's own fields (1.md to 3.md) and nothing is said of them. -/
def Obligations.ResetHoldsTheSpecValues : Prop :=
  State.reset.state = PipelineState.idle.code ∧ State.reset.bytesRead = 0 ∧ State.reset.blockBuffer = 0 ∧
    State.reset.digestBuffer = 0 ∧ State.reset.hashMsg = [] ∧ State.reset.rdAddr = Config.resetRdAddr ∧
    State.reset.wrAddr = Config.resetWrAddr ∧ State.reset.len = Config.resetLen ∧ State.reset.endsWell ∧
    ∀ a : Addr, State.reset.mem.read a = Config.memDraw a.toNat

/-- 70_reset_and_hazards.md section 1 (R200, the spec's decision D29): a reset gives every field of the device its reset
value from any pipeline state, abandons the operation and leaves the MemoryBus. The marks stay, being kept for the rest of
the run (R186, R187). That `out` and `envData` stay is the model's choice (notes/assumptions/13.md). -/
def Obligations.ResetAbandonsTheOperationAndKeepsMemory : Prop :=
  ∀ (s : State) (rest : List Input), s.pending = .reset :: rest →
    step s = .next { s with
      state := PipelineState.idle.code, bytesRead := 0, blockBuffer := 0, digestBuffer := 0, hashMsg := [],
      rdAddr := Config.resetRdAddr, wrAddr := Config.resetWrAddr, len := Config.resetLen, pending := rest }

/-- The invariant holds at reset. -/
def Obligations.InvariantAtReset : Prop := State.reset.Inv

/-! ## Host commands: NoOp and Read -/

/-- R101. -/
def Obligations.NopReturnsZeroAndKeepsState : Prop :=
  ∀ (addr : Addr) (data : Data) (s : State), exec (.nop addr data) s = .next { s with out := 0 }

/-- R105, R106, R107: the whole stored value, in every pipeline state; after reset, the draw. -/
def Obligations.RegisterReadsReturnTheStoredValue : Prop :=
  (∀ (data : Data) (s : State),
    exec (.rdRdAddr data) s = .next { s with out := s.rdAddr.toNat } ∧
    exec (.rdWrAddr data) s = .next { s with out := s.wrAddr.toNat } ∧
    exec (.rdLen data) s = .next { s with out := s.len.toNat }) ∧
  (∀ data : Data,
    exec (.rdRdAddr data) State.reset = .next { State.reset with out := Config.resetRdAddr.toNat } ∧
    exec (.rdWrAddr data) State.reset = .next { State.reset with out := Config.resetWrAddr.toNat } ∧
    exec (.rdLen data) State.reset = .next { State.reset with out := Config.resetLen.toNat })

/-- R104, with the codes of R88 (the spec's decision D6): a Read of `state` returns its code, which is 0 exactly when the
pipeline is Idle. -/
def Obligations.StateReadsZeroExactlyWhenIdle : Prop :=
  ∀ (data : Data) (s : State),
    exec (.rdState data) s = .next { s with out := s.state.toNat } ∧ (s.state.toNat = 0 ↔ s.isIdle = true)

/-- R103 and R108 (the spec's decisions D7 and D8): `start` and every unmapped address read as 0. -/
def Obligations.StartAndUnmappedReadZero : Prop :=
  ∀ (addr : Addr) (data : Data) (s : State),
    exec (.rdStart data) s = .next { s with out := 0 } ∧ exec (.rdUnmapped addr data) s = .next { s with out := 0 }

/-- R102 with the per-address rules (R103 and R108 by the spec's decisions D7, D8): a Read of any of the 65536 command
addresses returns that address's value, in any pipeline state, and changes nothing else. The high-byte addresses 0xFE03,
0xFE05, 0xFE07 return 0. -/
def Obligations.EveryReadAddressReturnsItsValue : Prop :=
  ∀ (addr : Addr) (data : Data) (s : State),
    exec (decodeTransaction tagRead addr data) s = .next { s with
      out := if addr = 0xFE01#16 then s.state.toNat else if addr = 0xFE02#16 then s.rdAddr.toNat
        else if addr = 0xFE04#16 then s.wrAddr.toNat else if addr = 0xFE06#16 then s.len.toNat else 0 }

/-- 20_memory.md section 4 (R64) and R102, as conflict C8 settles them: two Reads of one address with no step between them
return the same value. -/
def Obligations.RepeatedReadsAgree : Prop :=
  ∀ (addr : Addr) (d d' : Data) (s : State) (rest : List Input),
    s.pending = .host tagRead addr d :: .host tagRead addr d' :: rest →
      ∃ t, step s = .next t ∧ step t = .next { t with pending := rest }

/-! ## Host commands: Write -/

/-- R109: a Write to any address while the pipeline is not Idle, a start trigger too, is dropped. -/
def Obligations.BusyWritesAreDropped : Prop :=
  ∀ (addr : Addr) (data : Data) (s : State), s.isIdle = false →
    exec (decodeTransaction tagWrite addr data) s = .next { s with out := 0 }

/-- R113, R114, R115: a Write while Idle stores `data mod 2^16`, which the next Read of the register returns; while busy it
is dropped. -/
def Obligations.IdleWritesStoreMaskedData : Prop :=
  ∀ (data d : Data) (s : State),
    (s.isIdle = true →
      (exec (.wrRdAddr data) s = .next { s with rdAddr := BitVec.ofNat 16 (data % 2 ^ 16), out := 0 } ∧
        ∀ t, exec (.wrRdAddr data) s = .next t → exec (.rdRdAddr d) t = .next { t with out := data % 2 ^ 16 }) ∧
      (exec (.wrWrAddr data) s = .next { s with wrAddr := BitVec.ofNat 16 (data % 2 ^ 16), out := 0 } ∧
        ∀ t, exec (.wrWrAddr data) s = .next t → exec (.rdWrAddr d) t = .next { t with out := data % 2 ^ 16 }) ∧
      (exec (.wrLen data) s = .next { s with len := BitVec.ofNat 16 (data % 2 ^ 16), out := 0 } ∧
        ∀ t, exec (.wrLen data) s = .next t → exec (.rdLen d) t = .next { t with out := data % 2 ^ 16 })) ∧
    (s.isIdle = false →
      exec (.wrRdAddr data) s = .next { s with out := 0 } ∧
      exec (.wrWrAddr data) s = .next { s with out := 0 } ∧
      exec (.wrLen data) s = .next { s with out := 0 })

/-- 95_test_vectors.md section 1.2, property 1 (with R27, R113 to R115): "for any register R with width w, writing value v
while idle then reading R yields v mod 2^(8w)", for the three registers that store. -/
def Obligations.RegisterRoundTrip : Prop :=
  ∀ (r : HostReg) (v d : Data) (s : State) (rest : List Input),
    r = .rdAddr ∨ r = .wrAddr ∨ r = .len → s.isIdle = true →
    s.pending = .host tagWrite r.addr v :: .host tagRead r.addr d :: rest →
      ∃ t t', step s = .next t ∧ step t = .next t' ∧ t'.out = v % 2 ^ (8 * r.bytes)

/-- R110: a start trigger while Idle. The whole of `data` is compared with 1, so no other data is a start trigger. -/
def Obligations.StartTriggerArmsThePipeline : Prop :=
  (∀ s : State, s.isIdle = true →
    exec .wrStartGo s = .next { s with
      state := PipelineState.readBlock.code, bytesRead := 0,
      hashMsg := if Config.hashResetOnStart then [] else s.hashMsg, out := 0 }) ∧
  (∀ s : State, s.isIdle = false → exec .wrStartGo s = .next { s with out := 0 }) ∧
  (∀ data : Data, decodeTransaction tagWrite 0xFE00#16 data = .wrStartGo ↔ data = 1)

/-- R111: any other data written to `start` does nothing, Idle or busy. -/
def Obligations.OtherStartDataDoesNothing : Prop :=
  ∀ (data : Data) (s : State),
    (data ≠ 1 → decodeTransaction tagWrite 0xFE00#16 data = .wrStartOther data) ∧
    exec (.wrStartOther data) s = .next { s with out := 0 }

/-- R112 and R116 (the spec's decisions D10 and D9): a Write to `state` or to an unmapped address does nothing, on no
register and on no MemoryBus byte. -/
def Obligations.StateAndUnmappedWritesDoNothing : Prop :=
  ∀ (addr : Addr) (data : Data) (s : State),
    exec (.wrState data) s = .next { s with out := 0 } ∧ exec (.wrUnmapped addr data) s = .next { s with out := 0 }

/-- R89, R186 (the spec's decision D2): command tag 3 is refused, in every state. The transaction has no effect, `out`
stays too, and the refusal is marked with its reason; a mark already set is kept. As a step it is taken off the list. -/
def Obligations.ReservedTagIsRefused : Prop :=
  ∀ (addr : Addr) (data : Data) (s : State),
    decodeTransaction 3#2 addr data = .cmdReserved addr data ∧
    exec (.cmdReserved addr data) s =
      .next { s with refusalMark := s.refusalMark.or (some .reservedCommandTag) } ∧
    ∀ rest : List Input, s.pending = .host 3#2 addr data :: rest →
      step s = .next { s with refusalMark := s.refusalMark.or (some .reservedCommandTag), pending := rest }

/-- 40_host_commands.md section 5 (R117, which the spec derives) and R100: whatever a host transaction does, it never
touches the MemoryBus, the buffers, the fault mark or the other agents' fields; the refusal mark changes only by the
reserved tag; `bytes_read`, `hash_msg` and `state` change only by an accepted start trigger. -/
def Obligations.MacroStepChangesOnlyWhatItMay : Prop :=
  ∀ (cmd : BitVec 2) (addr : Addr) (data : Data) (s t : State),
    exec (decodeTransaction cmd addr data) s = .next t →
      t.mem = s.mem ∧ t.blockBuffer = s.blockBuffer ∧ t.digestBuffer = s.digestBuffer ∧ t.envData = s.envData ∧
      t.pending = s.pending ∧ t.faultMark = s.faultMark ∧ (t.refusalMark = s.refusalMark ∨ cmd = 3#2) ∧
      (t.state = s.state ∧ t.bytesRead = s.bytesRead ∧ t.hashMsg = s.hashMsg ∨
        cmd = tagWrite ∧ addr = HostReg.start.addr ∧ data = 1 ∧ s.isIdle = true ∧
        t.state = PipelineState.readBlock.code ∧ t.bytesRead = 0 ∧
        (t.hashMsg = s.hashMsg ∧ Config.hashResetOnStart = false ∨ t.hashMsg = [] ∧ Config.hashResetOnStart = true))

/-- 20_memory.md section 1 (R55, the spec's decision D11): the command space and the MemoryBus are separate, so a host
transaction does the same whatever the MemoryBus holds, and leaves it. -/
def Obligations.HostTransactionsIgnoreMemory : Prop :=
  ∀ (cmd : BitVec 2) (addr : Addr) (data : Data) (s t : State) (m : Memory),
    exec (decodeTransaction cmd addr data) s = .next t →
      exec (decodeTransaction cmd addr data) { s with mem := m } = .next { t with mem := m }

/-! ## Micro operations -/

/-- R145. -/
def Obligations.IdleMicroStepChangesNothing : Prop := ∀ s : State, exec .uIdle s = .next s

/-- R147. -/
def Obligations.Compute1OnlyAdvances : Prop :=
  ∀ s : State, exec .uCompute1 s = .next { s with state := PipelineState.compute2.code }

/-- R146: byte field `i` of block_buffer is the MemoryBus byte at `(base + 63 - i) mod 65536`, for all 64 fields;
`bytes_read` advances by 64; `state` is Compute1; nothing else changes. -/
def Obligations.ReadBlockAssemblesTheBlock : Prop :=
  ∀ s : State, ∃ t, exec .uReadBlock s = .next t ∧
    (∀ i < 64, t.blockBuffer.extractLsb' (8 * i) 8 =
      s.mem.read (BitVec.ofNat 16 (((s.rdAddr.toNat + s.bytesRead.toNat) % 65536 + 63 - i) % 65536))) ∧
    t.bytesRead.toNat = (s.bytesRead.toNat + 64) % 2 ^ Config.brWidth ∧
    t = { s with blockBuffer := t.blockBuffer, bytesRead := t.bytesRead, state := PipelineState.compute1.code }

/-- R148 (as corrected by conflict C1): the 64 bytes from bits 511-8i to 504-8i are appended to the message, digest byte
`i` of the whole message goes to bits 8i+7 to 8i, and the operation goes on exactly when `bytes_read < len`. -/
def Obligations.Compute2AbsorbsTheBlock : Prop :=
  ∀ s : State, ∃ t, exec .uCompute2 s = .next t ∧
    t.hashMsg = s.hashMsg ++ (List.range 64).map (fun i => s.blockBuffer.extractLsb' (504 - 8 * i) 8) ∧
    (∀ i : Fin 20, t.digestBuffer.extractLsb' (8 * i) 8 = (Config.hash t.hashMsg)[i]) ∧
    t.state =
      (if s.bytesRead.toNat < s.len.toNat then PipelineState.readBlock.code else PipelineState.writeDigest.code) ∧
    t = { s with hashMsg := t.hashMsg, digestBuffer := t.digestBuffer, state := t.state }

/-- R149: byte field `i` of digest_buffer is stored at `(wr_addr + 19 - i) mod 65536`, every other byte of memory reads as
before, `state` is Idle, and nothing else changes. -/
def Obligations.WriteDigestStoresTwentyBytes : Prop :=
  ∀ s : State, ∃ t, exec .uWriteDigest s = .next t ∧
    (∀ i < 20, digestAddr s i = BitVec.ofNat 16 ((s.wrAddr.toNat + 19 - i) % 65536) ∧
      t.mem.read (digestAddr s i) = s.digestBuffer.extractLsb' (8 * i) 8) ∧
    (∀ a : Addr, (∀ i < 20, a ≠ digestAddr s i) → t.mem.read a = s.mem.read a) ∧
    t.isIdle = true ∧
    t = { s with mem := t.mem, state := PipelineState.idle.code }

/-- R92, R187 (the spec's decision D26): a micro step at a code 5 to 255 faults, and only there. It has no effect, and the
fault is marked with its reason; a mark already set is kept. As a step it is taken off the list. -/
def Obligations.InvalidCodeFaults : Prop :=
  (∀ (code : BitVec 8) (s : State),
    exec (.uInvalid code) s = .next { s with faultMark := s.faultMark.or (some .invalidPipelineState) }) ∧
  (∀ code : BitVec 8, 5 ≤ code.toNat ↔ decodeMicro code = .uInvalid code) ∧
  (∀ (s : State) (rest : List Input), 5 ≤ s.state.toNat → s.pending = .tick :: rest →
    step s = .next { s with faultMark := s.faultMark.or (some .invalidPipelineState), pending := rest })

/-- 41_pipeline.md section 4 (R156, which the spec derives) and R52: U_WRITEDIGEST is the only instruction that stores to
the MemoryBus. -/
def Obligations.OnlyWriteDigestStores : Prop :=
  ∀ (i : Instr) (s t : State), i ≠ .uWriteDigest → exec i s = .next t → t.mem = s.mem

/-- R156 and R69 (the spec's derivation and its decision D23): U_READBLOCK depends on the MemoryBus only through the 64
bytes of its block, and the other three micro operations before U_WRITEDIGEST not at all. -/
def Obligations.PipelineReadsOnlyItsBlock : Prop :=
  ∀ (s t : State) (m : Memory),
    ((∀ j < 64, m.read (blockBase s + BitVec.ofNat 16 j) = s.mem.read (blockBase s + BitVec.ofNat 16 j)) →
      exec .uReadBlock s = .next t → exec .uReadBlock { s with mem := m } = .next { t with mem := m }) ∧
    (exec .uIdle s = .next t → exec .uIdle { s with mem := m } = .next { t with mem := m }) ∧
    (exec .uCompute1 s = .next t → exec .uCompute1 { s with mem := m } = .next { t with mem := m }) ∧
    (exec .uCompute2 s = .next t → exec .uCompute2 { s with mem := m } = .next { t with mem := m })

/-- 20_memory.md section 3 (R59, which the spec derives from R146 and R148; 95_test_vectors.md section 1.2, property 5):
the bytes a ReadBlock, Compute1, Compute2 triple submits are the 64 MemoryBus bytes from `base` up, in increasing address
order. -/
def Obligations.BlockIsHashedInMemoryOrder : Prop :=
  ∀ s : State, ∃ t u v, exec .uReadBlock s = .next t ∧ exec .uCompute1 t = .next u ∧ exec .uCompute2 u = .next v ∧
    v.hashMsg = s.hashMsg ++ messageBytes s.mem (s.rdAddr + s.bytesRead.setWidth 16) 64

/-- 20_memory.md section 3 (R60, which the spec derives from R148 and R149; 95_test_vectors.md section 1.2, property 6):
after Compute2 and WriteDigest the MemoryBus holds `d19, ..., d0` from `wr_addr` up. -/
def Obligations.DigestLandsReversed : Prop :=
  ∀ s : State, ∃ t u, exec .uCompute2 s = .next t ∧ exec .uWriteDigest t = .next u ∧
    ∀ j : Fin 20, u.mem.read (s.wrAddr + BitVec.ofNat 16 j) = (Config.hash t.hashMsg)[j.rev]

/-- 70_reset_and_hazards.md section 3 (R207, the spec's decision D23): a ReadBlock sees an Environment write to its block
that stands before it, in exactly the byte field of that address. -/
def Obligations.ReadBlockSeesAnEarlierWrite : Prop :=
  ∀ (s t u : State) (j : Nat) (v : Byte), j < 64 →
    exec .uReadBlock s = .next t → exec .uReadBlock (environmentWrite (blockBase s + BitVec.ofNat 16 j) v s) = .next u →
    ∀ i < 64, u.blockBuffer.extractLsb' (8 * i) 8 = if i = 63 - j then v else t.blockBuffer.extractLsb' (8 * i) 8

/-! ## The step -/

/-- R100 and R183: when a host transaction comes next, the step runs the row its three inputs decode to. -/
def Obligations.StepRunsTheTransaction : Prop :=
  ∀ (cmd : BitVec 2) (addr : Addr) (data : Data) (s : State) (rest : List Input),
    s.pending = .host cmd addr data :: rest →
      step s = exec (decodeTransaction cmd addr data) { s with pending := rest }

/-- R144 (D21) with the model's order of steps (notes/assumptions/1.md): when a micro step comes next, or nothing is
pending, the step runs the operation that `state` selects. -/
def Obligations.StepRunsTheSelectedMicroOperation : Prop :=
  (∀ (p : PipelineState) (s : State) (rest : List Input), s.pending = .tick :: rest → s.state = p.code →
    step s = exec (match p with
      | .idle => .uIdle
      | .readBlock => .uReadBlock
      | .compute1 => .uCompute1
      | .compute2 => .uCompute2
      | .writeDigest => .uWriteDigest) { s with pending := rest }) ∧
  (∀ s : State, s.pending = [] → step s = step { s with pending := [.tick] })

/-- 00_scope.md section 5 (R9, the spec's decision D1) and R51: an Environment write sets one byte of the MemoryBus, an
Environment read returns the last byte written at its address, else what was there; nothing of the device changes. -/
def Obligations.EnvironmentReadsTheLastWrite : Prop :=
  ∀ (s : State) (a b : Addr) (v : Byte) (rest : List Input), s.pending = .envWrite a v :: .envRead b :: rest →
    ∃ t t', step s = .next t ∧ step t = .next t' ∧ t'.envData = (if b = a then v else s.mem.read b) ∧
      (∀ c : Addr, t'.mem.read c = if c = a then v else s.mem.read c) ∧
      t' = { s with mem := t'.mem, envData := t'.envData, pending := rest }

/-- notes/assumptions/14.md and 17.md (the model's conventions over R83 and R87): a word placed for the fetch is the
instruction the next step runs. -/
def Obligations.PlacedWordRunsNext : Prop :=
  ∀ (s : State) (w : Nat),
    (w < 2 ^ 34 → step (s.withFetchWord 40 w) = exec (decode 16 (.ht (BitVec.ofNat 34 w))) s ∧
      decodeTableWord 40 w = some (decode 16 (.ht (BitVec.ofNat 34 w)))) ∧
    (w < 2 ^ 8 → step (s.withFetchWord 8 w) = exec (decode 16 (.us (BitVec.ofNat 8 w))) { s with state := BitVec.ofNat 8 w } ∧
      decodeTableWord 8 w = some (decode 16 (.us (BitVec.ofNat 8 w))))

/-- 10_state.md section 4 (R32, with the reset of R200): `state` stays one of the five codes, and changes only by a micro
step, by an accepted start trigger from Idle to ReadBlock, or by a reset. -/
def Obligations.StateChangesOnlyAsAllowed : Prop :=
  ∀ s t : State, s.legal = true → step s = .next t →
    t.legal = true ∧
    (t.state = s.state ∨ nextInput s = .tick ∨ nextInput s = .reset ∨
      nextInput s = .host tagWrite HostReg.start.addr 1 ∧ s.isIdle = true ∧ t.state = PipelineState.readBlock.code)

/-- 10_state.md section 4 (R33, of which the spec derives the second half): while the pipeline is not Idle no step but a
reset changes `rd_addr`, `wr_addr` or `len`. -/
def Obligations.AddressesAreFrozenWhileBusy : Prop :=
  ∀ s t : State, s.isIdle = false → nextInput s ≠ .reset → step s = .next t →
    t.rdAddr = s.rdAddr ∧ t.wrAddr = s.wrAddr ∧ t.len = s.len

/-- The hidden registers (R28, R29, R30, R31): which steps, but for a reset (ResetAbandonsTheOperationAndKeepsMemory),
change each. `bytes_read` changes only by a ReadBlock or an accepted start trigger; block_buffer only by a ReadBlock;
digest_buffer only by a Compute2; hash_msg only by a Compute2 or an accepted start trigger. -/
def Obligations.StepsThatChangeTheHiddenRegisters : Prop :=
  ∀ s t : State, step s = .next t → nextInput s ≠ .reset →
    (t.bytesRead ≠ s.bytesRead → nextInput s = .tick ∧ s.at .readBlock ∨
      nextInput s = .host tagWrite HostReg.start.addr 1 ∧ s.at .idle) ∧
    (t.blockBuffer ≠ s.blockBuffer → nextInput s = .tick ∧ s.at .readBlock) ∧
    (t.digestBuffer ≠ s.digestBuffer → nextInput s = .tick ∧ s.at .compute2) ∧
    (t.hashMsg ≠ s.hashMsg → nextInput s = .tick ∧ s.at .compute2 ∨
      nextInput s = .host tagWrite HostReg.start.addr 1 ∧ s.at .idle)

/-- R183 and R109 (R183 is the spec's decision D1): while busy, a host transaction that is not the reserved tag changes
nothing but the value returned (of the reserved tag, ReservedTagIsRefused says what it does in every state). -/
def Obligations.BusyHostStepsOnlyReturnAValue : Prop :=
  ∀ (cmd : BitVec 2) (addr : Addr) (data : Data) (s : State) (rest : List Input),
    s.isIdle = false → cmd ≠ 3#2 → s.pending = .host cmd addr data :: rest →
      ∃ v, step s = .next { s with out := v, pending := rest }

/-! ## Memory as data -/

/-- The canonical form of the model's memory (notes/assumptions/7.md): two canonical memories that read alike at every
address are the same data. -/
def Obligations.CanonicalMemoriesThatReadAlikeAreEqual : Prop :=
  ∀ m n : Memory, m.wf = true → n.wf = true → (∀ a : Addr, m.read a = n.read a) → m = n

/-! ## Encoding -/

/-- 30_encoding.md sections 1 and 2 (R81 to R85, R88, R95, several of them the spec's decisions): for every data width of
at least 16, decoding what the encoder made of a well-formed instruction gives the instruction, with every operand. -/
def Obligations.DecodeOfEncode : Prop :=
  ∀ (dw : Nat) (i : Instr), 16 ≤ dw → i.wfAt dw = true → decode dw (encode dw i) = i

/-- The other direction: every input word has one meaning, which is well-formed and encodes to that word. -/
def Obligations.EncodeOfDecode : Prop :=
  ∀ (dw : Nat) (x : InputWord dw), 16 ≤ dw → (decode dw x).wfAt dw = true ∧ encode dw (decode dw x) = x

/-- The same round trip through the byte string of an opcode-table row (notes/assumptions/14.md). -/
def Obligations.BytesDecodeBack : Prop := ∀ i : Instr, i.wf = true → decodeBytes (encodeBytes i) = .ok i

/-- R95 and spec/opcode_table.json: for each of the 2^34 transaction words, the decoder gives the instruction of the first
row, in the table's priority order, whose masked bits match. -/
def Obligations.DecodeFollowsTheOpcodeTable : Prop :=
  ∀ w : BitVec 34, (tableRow w).map OpcodeRow.mnemonic = some (decode 16 (.ht w)).mnemonic

/-- Words of 95_test_vectors.md section 2.1 (H2, H6, H8, H13, H20, H22, H25, H27, H28) and a selector of each kind. -/
def Obligations.SampleWordsDecode : Prop :=
  decode 16 (.ht 0x012345678#34) = .nop 0x1234#16 0x5678 ∧
  decode 16 (.ht 0x1FE010000#34) = .rdState 0 ∧
  decode 16 (.ht 0x1FE030000#34) = .rdUnmapped 0xFE03#16 0 ∧
  decode 16 (.ht 0x2FE021000#34) = .wrRdAddr 0x1000 ∧
  decode 16 (.ht 0x2FE000001#34) = .wrStartGo ∧
  decode 16 (.ht 0x2FE000101#34) = .wrStartOther 0x101 ∧
  decode 16 (.ht 0x2FE010007#34) = .wrState 7 ∧
  decode 16 (.ht 0x212340005#34) = .wrUnmapped 0x1234#16 5 ∧
  decode 16 (.ht 0x3FE021000#34) = .cmdReserved 0xFE02#16 0x1000 ∧
  decode 16 (.us 0x03#8) = .uCompute2 ∧
  decode 16 (.us 0x09#8) = .uInvalid 9#8

/-! ## The whole machine -/

/-- Every step keeps the invariant: the pipeline code is legal (R32), the memory canonical, the counter whole and bounded
(R34, R211), the block count of R150, and the digest of R148 at WriteDigest. -/
def Obligations.StepKeepsTheInvariant : Prop := ∀ s t : State, s.Inv → step s = .next t → t.Inv

/-- R187 and R186 (the spec's decisions D26 and D2): from a state with the invariant the step answers a next state without
a fault mark, and it sets the refusal mark only for the reserved command tag. -/
def Obligations.NoFaultAndOneRefusal : Prop :=
  ∀ s : State, s.Inv → ∃ t, step s = .next t ∧ t.faultMark = none ∧
    (t.refusalMark = s.refusalMark ∨
      t.refusalMark = some .reservedCommandTag ∧ ∃ addr data, nextInput s = .host 3#2 addr data)

/-- 70_reset_and_hazards.md section 3 (R211, the spec's decision D12): from a state with the invariant, a ReadBlock adds
exactly 64 to `bytes_read` and never passes 65536, so a wider counter would act alike. -/
def Obligations.CounterNeverWraps : Prop :=
  ∀ s t : State, s.Inv → s.at .readBlock → exec .uReadBlock s = .next t →
    t.bytesRead.toNat = s.bytesRead.toNat + 64 ∧ t.bytesRead.toNat ≤ 65536

/-- 41_pipeline.md section 3 (R153 and R34, which the spec derives): in an operation with nothing pending, block `k` of
`n(len)` is at ReadBlock after `3k` micro steps with `bytes_read = 64k`, then at Compute1, then at Compute2 with
`64(k+1)`; after `3 n(len)` steps the block is at WriteDigest. -/
def Obligations.OperationVisitsTheStatesInOrder : Prop :=
  ∀ s : State, s.at .readBlock → s.bytesRead = 0 → s.pending = [] →
    (∀ k < blockCount s.len.toNat, ∃ t u v : State,
      Host.Core.run core (3 * k) s = .next t ∧ t.at .readBlock ∧ t.bytesRead.toNat = 64 * k ∧
      Host.Core.run core (3 * k + 1) s = .next u ∧ u.at .compute1 ∧ u.bytesRead.toNat = 64 * (k + 1) ∧
      Host.Core.run core (3 * k + 2) s = .next v ∧ v.at .compute2 ∧ v.bytesRead.toNat = 64 * (k + 1)) ∧
    ∃ w : State, Host.Core.run core (3 * blockCount s.len.toNat) s = .next w ∧ w.at .writeDigest ∧
      w.bytesRead.toNat = 64 * blockCount s.len.toNat

/-- 41_pipeline.md section 3 (R150 to R153, which the spec derives): a start trigger accepted in any Idle state is followed
by `3 n(len) + 1` micro steps, after which the block is Idle, has submitted the `64 n(len)` MemoryBus bytes from `rd_addr`
up, and has written the digest of the whole message reversed at `wr_addr`, and no other byte. It holds for every `len`, 0
and 65535 too, for every hash and for both values of `HASH_RESET_ON_START`, and where the two regions overlap (R209, the
spec's decision D22). That `out` is 0 at the end, as the trigger left it, rests on the model's field for the returned value
(notes/assumptions/2.md). -/
def Obligations.OperationWritesTheDigestAndReturnsToIdle : Prop :=
  ∀ s : State, s.isIdle = true → s.pending = [.host tagWrite HostReg.start.addr 1] →
    ∃ t : State, Host.Core.run core (1 + (3 * blockCount s.len.toNat + 1)) s = .next t ∧ t.at .idle ∧
      t.bytesRead.toNat = 64 * blockCount s.len.toNat ∧
      t.hashMsg = (if Config.hashResetOnStart then [] else s.hashMsg) ++
        messageBytes s.mem s.rdAddr (64 * blockCount s.len.toNat) ∧
      (∀ i : Fin 20, t.digestBuffer.extractLsb' (8 * i) 8 = (Config.hash t.hashMsg)[i]) ∧
      (∀ j : Fin 20, t.mem.read (s.wrAddr + BitVec.ofNat 16 j) = (Config.hash t.hashMsg)[j.rev]) ∧
      (∀ a : Addr, (∀ j < 20, a ≠ s.wrAddr + BitVec.ofNat 16 j) → t.mem.read a = s.mem.read a) ∧
      t.rdAddr = s.rdAddr ∧ t.wrAddr = s.wrAddr ∧ t.len = s.len ∧ t.out = 0 ∧ t.envData = s.envData ∧
      t.refusalMark = s.refusalMark ∧ t.faultMark = s.faultMark ∧ t.pending = []

/-- 70_reset_and_hazards.md section 2 (R205, the spec's decision D21: the Pipeline keeps stepping; notes/assumptions/1.md):
a busy block with the invariant and nothing pending returns to Idle within `3 * 1024 + 1` steps. -/
def Obligations.BusyReturnsToIdle : Prop :=
  ∀ s : State, s.Inv → s.pending = [] → ∃ (k : Nat) (t : State), k ≤ 3073 ∧ Host.Core.run core k s = .next t ∧ t.at .idle

/-- 95_test_vectors.md section 3 with R183 and R109 (the spec's decision D1): host transactions mixed into an operation in
any order leave it as it is, up to its WriteDigest, whose step is not among those compared (with it:
HostTrafficDoesNotDisturbAWholeOperation). Whatever list of micro steps and host transactions comes, the reserved tag too,
the block stands where the micro steps alone would have put it, but for the value last returned to the host and the refusal
mark. -/
def Obligations.HostTrafficDoesNotDisturbAnOperation : Prop :=
  ∀ (s : State) (es : List Input), s.at .readBlock → s.bytesRead = 0 → s.pending = es →
    (∀ e ∈ es, e = .tick ∨ ∃ cmd addr data, e = .host cmd addr data) →
    es.count .tick ≤ 3 * blockCount s.len.toNat →
    ∃ t u : State, Host.Core.run core es.length s = .next t ∧
      Host.Core.run core (es.count .tick) { s with pending := [] } = .next u ∧
      t = { u with out := t.out, refusalMark := t.refusalMark }

/-- The same to the end of the operation: when the micro step of WriteDigest follows such a list, the block is Idle where
the `3 n(len) + 1` micro steps alone would have put it (R153), but for the value last returned and the refusal mark. -/
def Obligations.HostTrafficDoesNotDisturbAWholeOperation : Prop :=
  ∀ (s : State) (es : List Input), s.at .readBlock → s.bytesRead = 0 → s.pending = es ++ [.tick] →
    (∀ e ∈ es, e = .tick ∨ ∃ cmd addr data, e = .host cmd addr data) →
    es.count .tick = 3 * blockCount s.len.toNat →
    ∃ t u : State, Host.Core.run core (es.length + 1) s = .next t ∧ t.at .idle ∧
      Host.Core.run core (3 * blockCount s.len.toNat + 1) { s with pending := [] } = .next u ∧
      t = { u with out := t.out, refusalMark := t.refusalMark }

/-! ## Refusals and faults in a run -/

/-- 60_exceptions.md sections 1 and 5 (R180; R186 and R187 by the spec's decisions D2 and D26): every step answers a next
state, so a run goes on after a refusal and after a fault. -/
def Obligations.EveryStepAnswersANextState : Prop := ∀ s : State, ∃ t, step s = .next t

/-- R186 and R187 (the spec's decisions D2 and D26): a mark that is set stays as it is whatever step comes, a reset too; the
refusal mark is set only by a transaction with the reserved tag, the fault mark only by a micro step at an invalid code. -/
def Obligations.MarksAreKeptAndSetOnlyByTheirSteps : Prop :=
  ∀ s t : State, step s = .next t →
    (∀ r, s.refusalMark = some r → t.refusalMark = some r) ∧
    (∀ r, s.faultMark = some r → t.faultMark = some r) ∧
    (t.refusalMark ≠ s.refusalMark →
      t.refusalMark = some .reservedCommandTag ∧ ∃ addr data, nextInput s = .host 3#2 addr data) ∧
    (t.faultMark ≠ s.faultMark →
      t.faultMark = some .invalidPipelineState ∧ nextInput s = .tick ∧ s.legal = false)

/-- R186 and R187 (the spec's decisions D2 and D26): whatever follows, a run that meets a transaction with the reserved tag,
or a micro step at an invalid code, is at no later state one that ends well. -/
def Obligations.RunsWithAMarkedStepDoNotEndWell : Prop :=
  ∀ (k n : Nat) (s t : State), Host.Core.run core k s = .next t →
    ((∃ addr data, nextInput t = .host 3#2 addr data) ∨ nextInput t = .tick ∧ t.legal = false) →
    ∃ u : State, Host.Core.run core (k + 1 + n) s = .next u ∧ ¬ u.endsWell

/-- R187 with R38 (the spec's decisions D26 and D15): no run from the reset state faults, whatever list of the agents' steps
it takes, and while that list holds no transaction with the reserved tag the run ends well. -/
def Obligations.NoRunFromResetFaults : Prop :=
  ∀ (k : Nat) (es : List Input), ∃ t : State, Host.Core.run core k { State.reset with pending := es } = .next t ∧
    t.faultMark = none ∧ ((∀ addr data, .host 3#2 addr data ∉ es) → t.endsWell)
end

