-- ==== Sys2Proof/Laws/Bytes.lean ====
section
/-! SUPPORT. Byte fields of a packed value, and the byte orders of a block and of a digest. -/

namespace Sys2Proof.Machine

theorem packBytes_getLsbD (w n : Nat) (f : Nat → Byte) (j : Nat) :
    (packBytes w n f).getLsbD j = (decide (j < w) && decide (j < 8 * n) && (f (j / 8)).getLsbD (j % 8)) := by
  induction n with
  | zero => simp [packBytes]
  | succ n ih =>
    simp only [packBytes, BitVec.getLsbD_or, BitVec.getLsbD_shiftLeft, BitVec.getLsbD_setWidth, ih]
    by_cases hj : j < 8 * n
    · have h' : j < 8 * (n + 1) := by omega
      simp [hj, h']
    · by_cases hn : j < 8 * (n + 1)
      · have h₁ : j / 8 = n := by omega
        have h₂ : j % 8 = j - 8 * n := by omega
        rw [h₁, h₂]
        by_cases hw : j < w
        · have : j - 8 * n < w := by omega
          simp [hj, hn, hw, this]
        · simp [hw]
      · have : (f n).getLsbD (j - 8 * n) = false := BitVec.getLsbD_of_ge _ _ (by omega)
        simp [hj, hn, this]

/-- Byte field `i` of what `packBytes` made is `f i`. -/
theorem byteField_packBytes {w n : Nat} (f : Nat → Byte) {i : Nat} (hi : i < n) (hw : 8 * n ≤ w) :
    byteField (packBytes w n f) i = f i := by
  apply BitVec.eq_of_getLsbD_eq
  intro k hk
  have h₁ : (8 * i + k) / 8 = i := by omega
  have h₂ : (8 * i + k) % 8 = k := by omega
  have h₃ : 8 * i + k < w := by omega
  have h₄ : 8 * i + k < 8 * n := by omega
  rw [byteField, BitVec.getLsbD_extractLsb', packBytes_getLsbD, h₁, h₂]
  simp only [hk, h₃, h₄, decide_true, Bool.true_and]

/-- Byte field `i` of an assembled block is the byte at `base + 63 - i` (R146). -/
theorem byteField_assembleBlock (m : Memory) (base : Addr) {i : Nat} (hi : i < 64) :
    byteField (assembleBlock m base) i = m.read (blockAddr base i) :=
  byteField_packBytes _ hi (by decide)

/-- Byte field `i` of a packed digest is digest byte `i` (R148). -/
theorem byteField_packDigest (d : Vector Byte Config.digestBytes) {i : Nat} (hi : i < 20) :
    byteField (packDigest d) i = digestByte d i :=
  byteField_packBytes _ hi (by decide)

@[simp] theorem blockMessage_length (b : BitVec 512) : (blockMessage b).length = 64 := by simp [blockMessage]

/-- The 20 addresses of U_WRITEDIGEST differ from one another (R63). -/
theorem digestWrites_nodup (s : State) : ((digestWrites s).map Prod.fst).Nodup := by
  have h : (digestWrites s).map Prod.fst = (List.range 20).map (digestAddr s) := by
    simp [digestWrites, Function.comp_def]
  rw [h]
  refine (List.nodup_map_iff_inj_on List.nodup_range).mpr ?_
  intro i hi j hj hij
  rw [List.mem_range] at hi hj
  have := congrArg BitVec.toNat hij
  simp only [digestAddr, BitVec.toNat_sub, BitVec.toNat_add, BitVec.toNat_ofNat] at this
  omega

end Sys2Proof.Machine
end

