-- ==== Sys2Proof/Laws/Decode.lean ====
section
/-! SUPPORT. What address decode, code decode and the fields of a packed word give. -/

namespace Sys2Proof

@[simp] theorem decodeReg_addr (r : HostReg) : decodeReg r.addr = some r := by
  cases r <;> decide

/-- A register decodes only from its own address (R84: no aliases). -/
theorem addr_of_decodeReg {a : Addr} {r : HostReg} (h : decodeReg a = some r) : a = r.addr := by
  unfold decodeReg at h
  repeat' split at h
  all_goals simp_all

/-- An address decodes to no register exactly when it is none of the five (R84). -/
theorem decodeReg_none (a : Addr) : decodeReg a = none ↔ unmappedAddr a = true := by
  by_cases h₁ : a = HostReg.start.addr; · subst h₁; decide
  by_cases h₂ : a = HostReg.state.addr; · subst h₂; decide
  by_cases h₃ : a = HostReg.rdAddr.addr; · subst h₃; decide
  by_cases h₄ : a = HostReg.wrAddr.addr; · subst h₄; decide
  by_cases h₅ : a = HostReg.len.addr; · subst h₅; decide
  simp only [decodeReg, h₁, h₂, h₃, h₄, h₅, if_false, true_iff]
  simp only [HostReg.addr] at h₁ h₂ h₃ h₄ h₅
  simp [unmappedAddr, h₁, h₂, h₃, h₄, h₅]

@[simp] theorem ofCode_code (p : PipelineState) : PipelineState.ofCode p.code = some p := by
  cases p <;> decide

theorem code_of_ofCode {c : BitVec 8} {p : PipelineState} (h : PipelineState.ofCode c = some p) : c = p.code := by
  unfold PipelineState.ofCode at h
  repeat' split at h
  all_goals simp_all

theorem code_injective {p q : PipelineState} (h : p.code = q.code) : p = q := by
  have := congrArg PipelineState.ofCode h
  simpa using this

/-- The codes that stand for no pipeline state are 5 to 255 (R92). -/
theorem ofCode_none (c : BitVec 8) : PipelineState.ofCode c = none ↔ 5 ≤ c.toNat := by
  revert c
  decide

@[simp] theorem wordCmd_pack (dw : Nat) (c : BitVec 2) (a : Addr) (d : Data) :
    wordCmd dw (packTransaction dw c a d) = c := by
  apply BitVec.eq_of_getLsbD_eq
  intro i hi
  have h₁ : ¬ 16 + dw + i < dw := by omega
  have h₂ : ¬ 16 + dw + i - dw < 16 := by omega
  have h₃ : 16 + dw + i - dw - 16 = i := by omega
  simp only [wordCmd, packTransaction, BitVec.getLsbD_extractLsb', BitVec.getLsbD_append, hi, h₁, h₂, h₃, decide_true,
    Bool.true_and, if_false]

@[simp] theorem wordAddr_pack (dw : Nat) (c : BitVec 2) (a : Addr) (d : Data) :
    wordAddr dw (packTransaction dw c a d) = a := by
  apply BitVec.eq_of_getLsbD_eq
  intro i hi
  have h₁ : ¬ dw + i < dw := by omega
  have h₂ : dw + i - dw = i := by omega
  simp only [wordAddr, packTransaction, BitVec.getLsbD_extractLsb', BitVec.getLsbD_append, hi, h₁, h₂, decide_true,
    Bool.true_and, if_true, if_false]

theorem wordData_pack (dw : Nat) (c : BitVec 2) (a : Addr) (d : Data) :
    wordData dw (packTransaction dw c a d) = d % 2 ^ dw := by
  have h : (packTransaction dw c a d).extractLsb' 0 dw = BitVec.ofNat dw d := by
    apply BitVec.eq_of_getLsbD_eq
    intro i hi
    simp only [packTransaction, BitVec.getLsbD_extractLsb', BitVec.getLsbD_append, hi, Nat.zero_add, decide_true,
      Bool.true_and, if_true]
  rw [wordData, h, BitVec.toNat_ofNat]

/-- A packed word is its three fields (R83). -/
theorem pack_fields (dw : Nat) (w : BitVec (2 + 16 + dw)) :
    packTransaction dw (wordCmd dw w) (wordAddr dw w) (wordData dw w) = w := by
  apply BitVec.eq_of_getLsbD_eq
  intro i hi
  simp only [packTransaction, wordCmd, wordAddr, wordData, BitVec.getLsbD_append, BitVec.ofNat_toNat,
    BitVec.getLsbD_setWidth, BitVec.getLsbD_extractLsb']
  by_cases h₁ : i < dw
  · simp [h₁]
  · by_cases h₂ : i - dw < 16
    · have : dw + (i - dw) = i := by omega
      simp [h₁, h₂, this]
    · have h₃ : i - dw - 16 < 2 := by omega
      have : 16 + dw + (i - dw - 16) = i := by omega
      simp [h₁, h₂, h₃, this]

end Sys2Proof
end

