-- ==== Sys2Proof/Laws/Memory.lean ====
section
/-! SUPPORT. The laws of the MemoryBus: a read after a write, other addresses stay, and every operation keeps the canonical
form. -/

namespace Sys2Proof.Machine

/-! ### Reads -/

theorem Memory.get_insert_same (m : Memory) (a : Nat) (v : Byte) : (Memory.insert m a v).get a = v := by
  induction m with
  | nil => simp [Memory.insert, Memory.get]
  | cons c m ih =>
    obtain ⟨b, w⟩ := c
    simp only [Memory.insert]
    split
    · simp [Memory.get]
    · split
      · simp [Memory.get]
      · next _ hne => simpa [Memory.get, hne] using ih

theorem Memory.get_insert_ne (m : Memory) {a c : Nat} (h : c ≠ a) (v : Byte) :
    (Memory.insert m a v).get c = m.get c := by
  induction m with
  | nil => simp [Memory.insert, Memory.get, h]
  | cons e m ih =>
    obtain ⟨b, w⟩ := e
    simp only [Memory.insert]
    split
    · simp [Memory.get, h]
    · split
      · next _ hab => simp [Memory.get, h, ← hab]
      · simp [Memory.get, ih]

theorem Memory.get_erase_same (m : Memory) (a : Nat) : (Memory.erase m a).get a = Memory.unlisted a := by
  induction m with
  | nil => rfl
  | cons e m ih =>
    obtain ⟨b, w⟩ := e
    simp only [Memory.erase]
    split
    · exact ih
    · next hne => simpa [Memory.get, hne] using ih

theorem Memory.get_erase_ne (m : Memory) {a c : Nat} (h : c ≠ a) : (Memory.erase m a).get c = m.get c := by
  induction m with
  | nil => rfl
  | cons e m ih =>
    obtain ⟨b, w⟩ := e
    simp only [Memory.erase]
    split
    · next hab => rw [ih, Memory.get, if_neg (hab ▸ h)]
    · simp [Memory.get, ih]

theorem Memory.get_set_same (m : Memory) (a : Nat) (v : Byte) : (Memory.set m a v).get a = v := by
  rw [Memory.set]
  split
  · next h => rw [Memory.get_erase_same, h]
  · exact Memory.get_insert_same m a v

theorem Memory.get_set_ne (m : Memory) {a c : Nat} (h : c ≠ a) (v : Byte) : (Memory.set m a v).get c = m.get c := by
  rw [Memory.set]
  split
  · exact Memory.get_erase_ne m h
  · exact Memory.get_insert_ne m h v

@[simp] theorem Memory.read_write_same (m : Memory) (a : Addr) (v : Byte) : (m.write a v).read a = v :=
  Memory.get_set_same m a.toNat v

theorem Memory.read_write_ne (m : Memory) {a c : Addr} (h : c ≠ a) (v : Byte) : (m.write a v).read c = m.read c :=
  Memory.get_set_ne m (fun e => h (BitVec.eq_of_toNat_eq e)) v

/-- An address outside the written ones reads as before. -/
theorem Memory.read_writeAll_outside (ws : List (Addr × Byte)) (m : Memory) (c : Addr) (h : ∀ w ∈ ws, c ≠ w.1) :
    (m.writeAll ws).read c = m.read c := by
  induction ws generalizing m with
  | nil => rfl
  | cons w ws ih =>
    rw [Memory.writeAll, List.foldl_cons, ← Memory.writeAll, ih _ fun x hx => h x (List.mem_cons_of_mem w hx)]
    exact Memory.read_write_ne m (h w List.mem_cons_self) w.2

/-- Where the written addresses differ from one another, each reads as its byte. -/
theorem Memory.read_writeAll_inside (ws : List (Addr × Byte)) (m : Memory) (hd : (ws.map Prod.fst).Nodup)
    {w : Addr × Byte} (hw : w ∈ ws) : (m.writeAll ws).read w.1 = w.2 := by
  induction ws generalizing m with
  | nil => cases hw
  | cons x ws ih =>
    rw [List.map_cons, List.nodup_cons] at hd
    rw [Memory.writeAll, List.foldl_cons, ← Memory.writeAll]
    rcases List.mem_cons.mp hw with rfl | hin
    · rw [Memory.read_writeAll_outside ws _ _ fun y hy e => hd.1 (List.mem_map.mpr ⟨y, hy, e.symm⟩)]
      exact Memory.read_write_same m _ _
    · exact ih _ hd.2 hin

/-! ### The canonical form -/

theorem Memory.wfFrom_mono {lo lo' : Nat} (h : lo' ≤ lo) (m : Memory) (hm : Memory.wfFrom lo m = true) :
    Memory.wfFrom lo' m = true := by
  cases m with
  | nil => rfl
  | cons e m =>
    obtain ⟨b, w⟩ := e
    simp only [Memory.wfFrom, Bool.and_eq_true, decide_eq_true_eq] at hm ⊢
    exact ⟨⟨⟨Nat.le_trans h hm.1.1.1, hm.1.1.2⟩, hm.1.2⟩, hm.2⟩

theorem Memory.wfFrom_insert {lo a : Nat} {v : Byte} (hlo : lo ≤ a) (ha : a < Config.memSize)
    (hv : v ≠ Memory.unlisted a) (m : Memory) (hm : Memory.wfFrom lo m = true) :
    Memory.wfFrom lo (Memory.insert m a v) = true := by
  induction m generalizing lo with
  | nil => simp [Memory.insert, Memory.wfFrom, hlo, ha, hv]
  | cons e m ih =>
    obtain ⟨b, w⟩ := e
    simp only [Memory.wfFrom, Bool.and_eq_true, decide_eq_true_eq] at hm
    simp only [Memory.insert]
    split
    · next hab => simp_all [Memory.wfFrom]
    · split
      · next hab => subst hab; simp_all [Memory.wfFrom]
      · next h₁ h₂ =>
        have := ih (lo := b + 1) (by omega) hm.2
        simp_all [Memory.wfFrom]

theorem Memory.wfFrom_erase {lo : Nat} (a : Nat) (m : Memory) (hm : Memory.wfFrom lo m = true) :
    Memory.wfFrom lo (Memory.erase m a) = true := by
  induction m generalizing lo with
  | nil => rfl
  | cons e m ih =>
    obtain ⟨b, w⟩ := e
    simp only [Memory.wfFrom, Bool.and_eq_true, decide_eq_true_eq] at hm
    simp only [Memory.erase]
    split
    · exact ih (Memory.wfFrom_mono (by omega) m hm.2)
    · simp [Memory.wfFrom, hm, ih hm.2]

theorem Memory.wf_nil : Memory.wf [] = true := rfl

theorem Memory.wf_write (m : Memory) (a : Addr) (v : Byte) (hm : m.wf = true) : (m.write a v).wf = true := by
  unfold Memory.write Memory.set
  split
  · exact Memory.wfFrom_erase _ m hm
  · next hv => exact Memory.wfFrom_insert (Nat.zero_le _) a.isLt hv m hm

theorem Memory.wf_writeAll (ws : List (Addr × Byte)) (m : Memory) (hm : m.wf = true) : (m.writeAll ws).wf = true := by
  induction ws generalizing m with
  | nil => exact hm
  | cons w ws ih => exact ih _ (Memory.wf_write m w.1 w.2 hm)

end Sys2Proof.Machine
end

