-- ==== Sys2Proof/Laws/State.lean ====
section
/-! SUPPORT. One lemma per field for each update of State that the shared operations make. -/

namespace Sys2Proof.Machine

variable (s : State) (p : PipelineState)

/-! ### enter -/

@[simp] theorem enter_state : (s.enter p).state = p.code := rfl
@[simp] theorem enter_rdAddr : (s.enter p).rdAddr = s.rdAddr := rfl
@[simp] theorem enter_wrAddr : (s.enter p).wrAddr = s.wrAddr := rfl
@[simp] theorem enter_len : (s.enter p).len = s.len := rfl
@[simp] theorem enter_bytesRead : (s.enter p).bytesRead = s.bytesRead := rfl
@[simp] theorem enter_blockBuffer : (s.enter p).blockBuffer = s.blockBuffer := rfl
@[simp] theorem enter_digestBuffer : (s.enter p).digestBuffer = s.digestBuffer := rfl
@[simp] theorem enter_hashMsg : (s.enter p).hashMsg = s.hashMsg := rfl
@[simp] theorem enter_mem : (s.enter p).mem = s.mem := rfl
@[simp] theorem enter_refusalMark : (s.enter p).refusalMark = s.refusalMark := rfl
@[simp] theorem enter_faultMark : (s.enter p).faultMark = s.faultMark := rfl
@[simp] theorem enter_out : (s.enter p).out = s.out := rfl
@[simp] theorem enter_envData : (s.enter p).envData = s.envData := rfl
@[simp] theorem enter_pending : (s.enter p).pending = s.pending := rfl

/-! ### consumeInput -/

@[simp] theorem consumeInput_state : (consumeInput s).state = s.state := rfl
@[simp] theorem consumeInput_rdAddr : (consumeInput s).rdAddr = s.rdAddr := rfl
@[simp] theorem consumeInput_wrAddr : (consumeInput s).wrAddr = s.wrAddr := rfl
@[simp] theorem consumeInput_len : (consumeInput s).len = s.len := rfl
@[simp] theorem consumeInput_bytesRead : (consumeInput s).bytesRead = s.bytesRead := rfl
@[simp] theorem consumeInput_blockBuffer : (consumeInput s).blockBuffer = s.blockBuffer := rfl
@[simp] theorem consumeInput_digestBuffer : (consumeInput s).digestBuffer = s.digestBuffer := rfl
@[simp] theorem consumeInput_hashMsg : (consumeInput s).hashMsg = s.hashMsg := rfl
@[simp] theorem consumeInput_mem : (consumeInput s).mem = s.mem := rfl
@[simp] theorem consumeInput_refusalMark : (consumeInput s).refusalMark = s.refusalMark := rfl
@[simp] theorem consumeInput_faultMark : (consumeInput s).faultMark = s.faultMark := rfl
@[simp] theorem consumeInput_out : (consumeInput s).out = s.out := rfl
@[simp] theorem consumeInput_envData : (consumeInput s).envData = s.envData := rfl
@[simp] theorem consumeInput_pending : (consumeInput s).pending = s.pending.tail := rfl

/-! ### hashUpdate -/

@[simp] theorem hashUpdate_state (m : List Byte) : (hashUpdate m s).state = s.state := rfl
@[simp] theorem hashUpdate_rdAddr (m : List Byte) : (hashUpdate m s).rdAddr = s.rdAddr := rfl
@[simp] theorem hashUpdate_wrAddr (m : List Byte) : (hashUpdate m s).wrAddr = s.wrAddr := rfl
@[simp] theorem hashUpdate_len (m : List Byte) : (hashUpdate m s).len = s.len := rfl
@[simp] theorem hashUpdate_bytesRead (m : List Byte) : (hashUpdate m s).bytesRead = s.bytesRead := rfl
@[simp] theorem hashUpdate_blockBuffer (m : List Byte) : (hashUpdate m s).blockBuffer = s.blockBuffer := rfl
@[simp] theorem hashUpdate_digestBuffer (m : List Byte) : (hashUpdate m s).digestBuffer = s.digestBuffer := rfl
@[simp] theorem hashUpdate_hashMsg (m : List Byte) : (hashUpdate m s).hashMsg = s.hashMsg ++ m := rfl
@[simp] theorem hashUpdate_mem (m : List Byte) : (hashUpdate m s).mem = s.mem := rfl
@[simp] theorem hashUpdate_refusalMark (m : List Byte) : (hashUpdate m s).refusalMark = s.refusalMark := rfl
@[simp] theorem hashUpdate_faultMark (m : List Byte) : (hashUpdate m s).faultMark = s.faultMark := rfl
@[simp] theorem hashUpdate_out (m : List Byte) : (hashUpdate m s).out = s.out := rfl
@[simp] theorem hashUpdate_envData (m : List Byte) : (hashUpdate m s).envData = s.envData := rfl
@[simp] theorem hashUpdate_pending (m : List Byte) : (hashUpdate m s).pending = s.pending := rfl

/-! ### armPipeline -/

@[simp] theorem armPipeline_state : (armPipeline s).state = PipelineState.readBlock.code := rfl
@[simp] theorem armPipeline_rdAddr : (armPipeline s).rdAddr = s.rdAddr := rfl
@[simp] theorem armPipeline_wrAddr : (armPipeline s).wrAddr = s.wrAddr := rfl
@[simp] theorem armPipeline_len : (armPipeline s).len = s.len := rfl
@[simp] theorem armPipeline_bytesRead : (armPipeline s).bytesRead = 0 := rfl
@[simp] theorem armPipeline_blockBuffer : (armPipeline s).blockBuffer = s.blockBuffer := rfl
@[simp] theorem armPipeline_digestBuffer : (armPipeline s).digestBuffer = s.digestBuffer := rfl
@[simp] theorem armPipeline_hashMsg : (armPipeline s).hashMsg = hashMsgAtStart s := rfl
@[simp] theorem armPipeline_mem : (armPipeline s).mem = s.mem := rfl
@[simp] theorem armPipeline_refusalMark : (armPipeline s).refusalMark = s.refusalMark := rfl
@[simp] theorem armPipeline_faultMark : (armPipeline s).faultMark = s.faultMark := rfl
@[simp] theorem armPipeline_out : (armPipeline s).out = s.out := rfl
@[simp] theorem armPipeline_envData : (armPipeline s).envData = s.envData := rfl
@[simp] theorem armPipeline_pending : (armPipeline s).pending = s.pending := rfl

/-! ### absorbBlock -/

@[simp] theorem absorbBlock_state : (absorbBlock s).state = s.state := rfl
@[simp] theorem absorbBlock_rdAddr : (absorbBlock s).rdAddr = s.rdAddr := rfl
@[simp] theorem absorbBlock_wrAddr : (absorbBlock s).wrAddr = s.wrAddr := rfl
@[simp] theorem absorbBlock_len : (absorbBlock s).len = s.len := rfl
@[simp] theorem absorbBlock_bytesRead : (absorbBlock s).bytesRead = s.bytesRead := rfl
@[simp] theorem absorbBlock_blockBuffer : (absorbBlock s).blockBuffer = s.blockBuffer := rfl
@[simp] theorem absorbBlock_digestBuffer : (absorbBlock s).digestBuffer = packDigest (Config.hash (s.hashMsg ++ blockMessage s.blockBuffer)) := rfl
@[simp] theorem absorbBlock_hashMsg : (absorbBlock s).hashMsg = s.hashMsg ++ blockMessage s.blockBuffer := rfl
@[simp] theorem absorbBlock_mem : (absorbBlock s).mem = s.mem := rfl
@[simp] theorem absorbBlock_refusalMark : (absorbBlock s).refusalMark = s.refusalMark := rfl
@[simp] theorem absorbBlock_faultMark : (absorbBlock s).faultMark = s.faultMark := rfl
@[simp] theorem absorbBlock_out : (absorbBlock s).out = s.out := rfl
@[simp] theorem absorbBlock_envData : (absorbBlock s).envData = s.envData := rfl
@[simp] theorem absorbBlock_pending : (absorbBlock s).pending = s.pending := rfl

/-! ### environmentRead -/

@[simp] theorem environmentRead_state (a : Addr) : (environmentRead a s).state = s.state := rfl
@[simp] theorem environmentRead_rdAddr (a : Addr) : (environmentRead a s).rdAddr = s.rdAddr := rfl
@[simp] theorem environmentRead_wrAddr (a : Addr) : (environmentRead a s).wrAddr = s.wrAddr := rfl
@[simp] theorem environmentRead_len (a : Addr) : (environmentRead a s).len = s.len := rfl
@[simp] theorem environmentRead_bytesRead (a : Addr) : (environmentRead a s).bytesRead = s.bytesRead := rfl
@[simp] theorem environmentRead_blockBuffer (a : Addr) : (environmentRead a s).blockBuffer = s.blockBuffer := rfl
@[simp] theorem environmentRead_digestBuffer (a : Addr) : (environmentRead a s).digestBuffer = s.digestBuffer := rfl
@[simp] theorem environmentRead_hashMsg (a : Addr) : (environmentRead a s).hashMsg = s.hashMsg := rfl
@[simp] theorem environmentRead_mem (a : Addr) : (environmentRead a s).mem = s.mem := rfl
@[simp] theorem environmentRead_refusalMark (a : Addr) : (environmentRead a s).refusalMark = s.refusalMark := rfl
@[simp] theorem environmentRead_faultMark (a : Addr) : (environmentRead a s).faultMark = s.faultMark := rfl
@[simp] theorem environmentRead_out (a : Addr) : (environmentRead a s).out = s.out := rfl
@[simp] theorem environmentRead_envData (a : Addr) : (environmentRead a s).envData = s.mem.read a := rfl
@[simp] theorem environmentRead_pending (a : Addr) : (environmentRead a s).pending = s.pending := rfl

/-! ### environmentWrite -/

@[simp] theorem environmentWrite_state (a : Addr) (v : Byte) : (environmentWrite a v s).state = s.state := rfl
@[simp] theorem environmentWrite_rdAddr (a : Addr) (v : Byte) : (environmentWrite a v s).rdAddr = s.rdAddr := rfl
@[simp] theorem environmentWrite_wrAddr (a : Addr) (v : Byte) : (environmentWrite a v s).wrAddr = s.wrAddr := rfl
@[simp] theorem environmentWrite_len (a : Addr) (v : Byte) : (environmentWrite a v s).len = s.len := rfl
@[simp] theorem environmentWrite_bytesRead (a : Addr) (v : Byte) : (environmentWrite a v s).bytesRead = s.bytesRead := rfl
@[simp] theorem environmentWrite_blockBuffer (a : Addr) (v : Byte) : (environmentWrite a v s).blockBuffer = s.blockBuffer := rfl
@[simp] theorem environmentWrite_digestBuffer (a : Addr) (v : Byte) : (environmentWrite a v s).digestBuffer = s.digestBuffer := rfl
@[simp] theorem environmentWrite_hashMsg (a : Addr) (v : Byte) : (environmentWrite a v s).hashMsg = s.hashMsg := rfl
@[simp] theorem environmentWrite_mem (a : Addr) (v : Byte) : (environmentWrite a v s).mem = s.mem.write a v := rfl
@[simp] theorem environmentWrite_refusalMark (a : Addr) (v : Byte) : (environmentWrite a v s).refusalMark = s.refusalMark := rfl
@[simp] theorem environmentWrite_faultMark (a : Addr) (v : Byte) : (environmentWrite a v s).faultMark = s.faultMark := rfl
@[simp] theorem environmentWrite_out (a : Addr) (v : Byte) : (environmentWrite a v s).out = s.out := rfl
@[simp] theorem environmentWrite_envData (a : Addr) (v : Byte) : (environmentWrite a v s).envData = s.envData := rfl
@[simp] theorem environmentWrite_pending (a : Addr) (v : Byte) : (environmentWrite a v s).pending = s.pending := rfl

/-! ### refuseStep -/

@[simp] theorem refuseStep_state (r : Refusal) : (refuseStep r s).state = s.state := rfl
@[simp] theorem refuseStep_rdAddr (r : Refusal) : (refuseStep r s).rdAddr = s.rdAddr := rfl
@[simp] theorem refuseStep_wrAddr (r : Refusal) : (refuseStep r s).wrAddr = s.wrAddr := rfl
@[simp] theorem refuseStep_len (r : Refusal) : (refuseStep r s).len = s.len := rfl
@[simp] theorem refuseStep_bytesRead (r : Refusal) : (refuseStep r s).bytesRead = s.bytesRead := rfl
@[simp] theorem refuseStep_blockBuffer (r : Refusal) : (refuseStep r s).blockBuffer = s.blockBuffer := rfl
@[simp] theorem refuseStep_digestBuffer (r : Refusal) : (refuseStep r s).digestBuffer = s.digestBuffer := rfl
@[simp] theorem refuseStep_hashMsg (r : Refusal) : (refuseStep r s).hashMsg = s.hashMsg := rfl
@[simp] theorem refuseStep_mem (r : Refusal) : (refuseStep r s).mem = s.mem := rfl
@[simp] theorem refuseStep_refusalMark (r : Refusal) : (refuseStep r s).refusalMark = s.refusalMark.or (some r) := rfl
@[simp] theorem refuseStep_faultMark (r : Refusal) : (refuseStep r s).faultMark = s.faultMark := rfl
@[simp] theorem refuseStep_out (r : Refusal) : (refuseStep r s).out = s.out := rfl
@[simp] theorem refuseStep_envData (r : Refusal) : (refuseStep r s).envData = s.envData := rfl
@[simp] theorem refuseStep_pending (r : Refusal) : (refuseStep r s).pending = s.pending := rfl

/-! ### faultStep -/

@[simp] theorem faultStep_state (r : Fault) : (faultStep r s).state = s.state := rfl
@[simp] theorem faultStep_rdAddr (r : Fault) : (faultStep r s).rdAddr = s.rdAddr := rfl
@[simp] theorem faultStep_wrAddr (r : Fault) : (faultStep r s).wrAddr = s.wrAddr := rfl
@[simp] theorem faultStep_len (r : Fault) : (faultStep r s).len = s.len := rfl
@[simp] theorem faultStep_bytesRead (r : Fault) : (faultStep r s).bytesRead = s.bytesRead := rfl
@[simp] theorem faultStep_blockBuffer (r : Fault) : (faultStep r s).blockBuffer = s.blockBuffer := rfl
@[simp] theorem faultStep_digestBuffer (r : Fault) : (faultStep r s).digestBuffer = s.digestBuffer := rfl
@[simp] theorem faultStep_hashMsg (r : Fault) : (faultStep r s).hashMsg = s.hashMsg := rfl
@[simp] theorem faultStep_mem (r : Fault) : (faultStep r s).mem = s.mem := rfl
@[simp] theorem faultStep_refusalMark (r : Fault) : (faultStep r s).refusalMark = s.refusalMark := rfl
@[simp] theorem faultStep_faultMark (r : Fault) : (faultStep r s).faultMark = s.faultMark.or (some r) := rfl
@[simp] theorem faultStep_out (r : Fault) : (faultStep r s).out = s.out := rfl
@[simp] theorem faultStep_envData (r : Fault) : (faultStep r s).envData = s.envData := rfl
@[simp] theorem faultStep_pending (r : Fault) : (faultStep r s).pending = s.pending := rfl

/-! ### resetDevice -/

@[simp] theorem resetDevice_state : (resetDevice s).state = PipelineState.idle.code := rfl
@[simp] theorem resetDevice_rdAddr : (resetDevice s).rdAddr = Config.resetRdAddr := rfl
@[simp] theorem resetDevice_wrAddr : (resetDevice s).wrAddr = Config.resetWrAddr := rfl
@[simp] theorem resetDevice_len : (resetDevice s).len = Config.resetLen := rfl
@[simp] theorem resetDevice_bytesRead : (resetDevice s).bytesRead = 0 := rfl
@[simp] theorem resetDevice_blockBuffer : (resetDevice s).blockBuffer = 0 := rfl
@[simp] theorem resetDevice_digestBuffer : (resetDevice s).digestBuffer = 0 := rfl
@[simp] theorem resetDevice_hashMsg : (resetDevice s).hashMsg = [] := rfl
@[simp] theorem resetDevice_mem : (resetDevice s).mem = s.mem := rfl
@[simp] theorem resetDevice_refusalMark : (resetDevice s).refusalMark = s.refusalMark := rfl
@[simp] theorem resetDevice_faultMark : (resetDevice s).faultMark = s.faultMark := rfl
@[simp] theorem resetDevice_out : (resetDevice s).out = s.out := rfl
@[simp] theorem resetDevice_envData : (resetDevice s).envData = s.envData := rfl
@[simp] theorem resetDevice_pending : (resetDevice s).pending = s.pending := rfl

end Sys2Proof.Machine
end

