-- ==== Sys2Proof/Laws/Ops.lean ====
section
/-! SUPPORT. What each shared operation can do, said once. -/

namespace Sys2Proof.Machine

theorem reply_eq_next {v : Data} {s t : State} : reply v s = .next t ↔ t = { s with out := v } := by
  simp only [reply, Host.Outcome.next.injEq]
  exact eq_comm

/-- A Write answers a next state always: the effect's while Idle, the old one while busy (R109). -/
theorem gatedWrite_eq_next {f : State → State} {s t : State} :
    gatedWrite f s = .next t ↔ t = { (if s.isIdle then f s else s) with out := 0 } := by
  unfold gatedWrite
  split <;> simp_all [reply_eq_next]

theorem isIdle_iff (s : State) : s.isIdle = true ↔ s.at .idle := by simp [State.isIdle, State.at]

theorem isIdle_of_at {s : State} {p : PipelineState} (h : s.at p) : s.isIdle = decide (p = .idle) := by
  unfold State.at at h
  cases p <;> simp [State.isIdle, h] <;> decide

theorem legal_iff (s : State) : s.legal = true ↔ ∃ p, s.at p := by
  constructor
  · intro h
    obtain ⟨p, hp⟩ := Option.isSome_iff_exists.mp h
    exact ⟨p, code_of_ofCode hp⟩
  · rintro ⟨p, hp⟩
    simp [State.legal, State.at] at hp ⊢
    simp [hp]

/-- `bytes_read < len` as numbers (R148). -/
theorem moreBlocks_iff (s : State) : moreBlocks s = true ↔ s.bytesRead.toNat < s.len.toNat := by
  rw [moreBlocks, BitVec.ult, decide_eq_true_eq, BitVec.toNat_setWidth,
    Nat.mod_eq_of_lt (Nat.lt_of_lt_of_le s.len.isLt (by decide))]

theorem blockBase_toNat (s : State) : (blockBase s).toNat = (s.rdAddr.toNat + s.bytesRead.toNat) % 65536 := by
  simp [blockBase]

end Sys2Proof.Machine
end

