-- ==== Sys2Proof/Laws/Exec.lean ====
section
/-! SUPPORT. What a host transaction, a micro step and a whole step can do, said once each. -/

namespace Sys2Proof.Machine

/-- The four dispatches of a transaction (R100). -/
theorem transaction_split (c : BitVec 2) (a : Addr) (d : Data) :
    c = tagNoOp ∧ decodeTransaction c a d = .nop a d ∨ c = tagRead ∧ decodeTransaction c a d = decodeRead a d ∨
    c = tagWrite ∧ decodeTransaction c a d = decodeWrite a d ∨
    c = tagReserved ∧ decodeTransaction c a d = .cmdReserved a d := by
  have h : c = tagNoOp ∨ c = tagRead ∨ c = tagWrite ∨ c = tagReserved := by
    revert c
    decide
  rcases h with rfl | rfl | rfl | rfl
  · exact .inl ⟨rfl, rfl⟩
  · exact .inr (.inl ⟨rfl, rfl⟩)
  · exact .inr (.inr (.inl ⟨rfl, rfl⟩))
  · exact .inr (.inr (.inr ⟨rfl, rfl⟩))

/-- A Read answers a next state that differs in `out` alone (R102). -/
theorem exec_decodeRead (a : Addr) (d : Data) (s : State) :
    ∃ v, exec (decodeRead a d) s = .next { s with out := v } := by
  unfold decodeRead
  split <;> exact ⟨_, rfl⟩

/-- A Write answers a next state: dropped or without effect, or one of the four effects while Idle (R109 to R116). -/
theorem exec_decodeWrite (a : Addr) (d : Data) (s : State) :
    exec (decodeWrite a d) s = .next { s with out := 0 } ∨
    s.isIdle = true ∧
      (a = HostReg.start.addr ∧ d = 1 ∧ exec (decodeWrite a d) s = .next { armPipeline s with out := 0 } ∨
       a = HostReg.rdAddr.addr ∧ exec (decodeWrite a d) s = .next { s with rdAddr := maskToRegister d, out := 0 } ∨
       a = HostReg.wrAddr.addr ∧ exec (decodeWrite a d) s = .next { s with wrAddr := maskToRegister d, out := 0 } ∨
       a = HostReg.len.addr ∧ exec (decodeWrite a d) s = .next { s with len := maskToRegister d, out := 0 }) := by
  cases hi : s.isIdle with
  | false =>
    left
    unfold decodeWrite
    split
    · split <;> simp [exec, execWrStartGo, execWrStartOther, gatedWrite, reply, hi]
    all_goals simp [exec, execWrState, execWrRdAddr, execWrWrAddr, execWrLen, execWrUnmapped, gatedWrite, reply, hi]
  | true =>
    cases hr : decodeReg a with
    | none => left; simp [decodeWrite, hr, exec, execWrUnmapped, gatedWrite, reply]
    | some r =>
      obtain rfl := addr_of_decodeReg hr
      cases r with
      | start =>
        by_cases h1 : d = 1
        · right; simp [decodeWrite, h1, exec, execWrStartGo, gatedWrite, reply, hi]
        · left; simp [decodeWrite, h1, exec, execWrStartOther, gatedWrite, reply]
      | state => left; simp [decodeWrite, exec, execWrState, gatedWrite, reply]
      | rdAddr => right; simp [decodeWrite, exec, execWrRdAddr, gatedWrite, reply, hi]
      | wrAddr => right; simp [decodeWrite, exec, execWrWrAddr, gatedWrite, reply, hi]
      | len => right; simp [decodeWrite, exec, execWrLen, gatedWrite, reply, hi]

/-- Everything a host transaction that answers a next state can do (R100, R117). -/
theorem transaction_cases {c : BitVec 2} {a : Addr} {d : Data} {s t : State}
    (h : exec (decodeTransaction c a d) s = .next t) :
    (∃ v, c ≠ tagReserved ∧ t = { s with out := v }) ∨
    c = tagReserved ∧ t = refuseStep .reservedCommandTag s ∨
    c = tagWrite ∧ s.isIdle = true ∧
      (a = HostReg.start.addr ∧ d = 1 ∧ t = { armPipeline s with out := 0 } ∨
       a = HostReg.rdAddr.addr ∧ t = { s with rdAddr := maskToRegister d, out := 0 } ∨
       a = HostReg.wrAddr.addr ∧ t = { s with wrAddr := maskToRegister d, out := 0 } ∨
       a = HostReg.len.addr ∧ t = { s with len := maskToRegister d, out := 0 }) := by
  rcases transaction_split c a d with ⟨rfl, e⟩ | ⟨rfl, e⟩ | ⟨rfl, e⟩ | ⟨hc, e⟩ <;> rw [e] at h
  · exact .inl ⟨0, by decide, reply_eq_next.mp h⟩
  · obtain ⟨v, hv⟩ := exec_decodeRead a d s
    rw [hv] at h
    exact .inl ⟨v, by decide, (Host.Outcome.next.inj h).symm⟩
  · rcases exec_decodeWrite a d s with hv | ⟨hi, ⟨ha, hd, hv⟩ | ⟨ha, hv⟩ | ⟨ha, hv⟩ | ⟨ha, hv⟩⟩ <;> rw [hv] at h <;>
      obtain rfl := Host.Outcome.next.inj h
    · exact .inl ⟨0, by decide, rfl⟩
    · exact .inr (.inr ⟨rfl, hi, .inl ⟨ha, hd, rfl⟩⟩)
    · exact .inr (.inr ⟨rfl, hi, .inr (.inl ⟨ha, rfl⟩)⟩)
    · exact .inr (.inr ⟨rfl, hi, .inr (.inr (.inl ⟨ha, rfl⟩))⟩)
    · exact .inr (.inr ⟨rfl, hi, .inr (.inr (.inr ⟨ha, rfl⟩))⟩)
  · exact .inr (.inl ⟨hc, (Host.Outcome.next.inj h).symm⟩)

/-- A host transaction answers a next state, whatever it is (R89, R180, R186). -/
theorem transaction_total (c : BitVec 2) (a : Addr) (d : Data) (s : State) :
    ∃ t, exec (decodeTransaction c a d) s = .next t := by
  rcases transaction_split c a d with ⟨-, e⟩ | ⟨-, e⟩ | ⟨-, e⟩ | ⟨-, e⟩ <;> rw [e]
  · exact ⟨_, rfl⟩
  · obtain ⟨v, hv⟩ := exec_decodeRead a d s
    exact ⟨_, hv⟩
  · rcases exec_decodeWrite a d s with hv | ⟨-, ⟨-, -, hv⟩ | ⟨-, hv⟩ | ⟨-, hv⟩ | ⟨-, hv⟩⟩ <;> exact ⟨_, hv⟩
  · exact ⟨_, rfl⟩

/-- The state after the micro operation of pipeline state `p` (R145 to R149). -/
def microResult (p : PipelineState) (s : State) : State :=
  match p with
  | .idle => s
  | .readBlock => { s.enter .compute1 with
      blockBuffer := assembleBlock s.mem (blockBase s), bytesRead := s.bytesRead + BitVec.ofNat Config.brWidth 64 }
  | .compute1 => s.enter .compute2
  | .compute2 => (absorbBlock s).enter (if moreBlocks s then .readBlock else .writeDigest)
  | .writeDigest => { s.enter .idle with mem := s.mem.writeAll (digestWrites s) }

/-- At a pipeline state's code the micro step's operation is that state's (R144). -/
theorem exec_decodeMicro (p : PipelineState) (s : State) : exec (decodeMicro p.code) s = .next (microResult p s) := by
  cases p <;> simp [decodeMicro, exec, microResult, execUIdle, execUReadBlock, execUCompute1, execUCompute2, execUWriteDigest]

/-- At any other code the step does not happen and is marked (R92, R187). -/
theorem exec_decodeMicro_invalid {c : BitVec 8} (h : PipelineState.ofCode c = none) (s : State) :
    exec (decodeMicro c) s = .next (faultStep .invalidPipelineState s) := by
  simp [decodeMicro, h, exec, execUInvalid]

/-- A micro step answers a next state at every code. -/
theorem micro_total (c : BitVec 8) (s : State) : ∃ t, exec (decodeMicro c) s = .next t := by
  cases h : PipelineState.ofCode c with
  | none => exact ⟨_, exec_decodeMicro_invalid h s⟩
  | some p => exact code_of_ofCode h ▸ ⟨_, exec_decodeMicro p s⟩

/-- Every step answers a next state: a run goes on after a refusal and after a fault (R180, R186, R187). -/
theorem step_total (s : State) : ∃ t, step s = .next t := by
  unfold step
  split
  · exact transaction_total ..
  · exact micro_total ..
  all_goals exact ⟨_, rfl⟩

/-- Everything a step that answers a next state can do: one agent's step, taken whole (R9, R62). -/
theorem step_cases {s t : State} (h : step s = .next t) :
    (∃ c a d, nextInput s = .host c a d ∧ exec (decodeTransaction c a d) (consumeInput s) = .next t) ∨
    (∃ p, nextInput s = .tick ∧ s.at p ∧ t = microResult p (consumeInput s)) ∨
    nextInput s = .tick ∧ s.legal = false ∧ t = faultStep .invalidPipelineState (consumeInput s) ∨
    (∃ a, nextInput s = .envRead a ∧ t = environmentRead a (consumeInput s)) ∨
    (∃ a v, nextInput s = .envWrite a v ∧ t = environmentWrite a v (consumeInput s)) ∨
    nextInput s = .reset ∧ t = resetDevice (consumeInput s) := by
  unfold step at h
  split at h
  · next c a d e => exact .inl ⟨c, a, d, e, h⟩
  · next e =>
    cases ho : PipelineState.ofCode s.state with
    | none =>
      rw [exec_decodeMicro_invalid ho] at h
      exact .inr (.inr (.inl ⟨e, by simp [State.legal, ho], (Host.Outcome.next.inj h).symm⟩))
    | some p =>
      rw [code_of_ofCode ho, exec_decodeMicro] at h
      exact .inr (.inl ⟨p, e, code_of_ofCode ho, (Host.Outcome.next.inj h).symm⟩)
  · next a e => exact .inr (.inr (.inr (.inl ⟨a, e, (Host.Outcome.next.inj h).symm⟩)))
  · next a v e => exact .inr (.inr (.inr (.inr (.inl ⟨a, v, e, (Host.Outcome.next.inj h).symm⟩))))
  · next e => exact .inr (.inr (.inr (.inr (.inr ⟨e, (Host.Outcome.next.inj h).symm⟩))))

end Sys2Proof.Machine
end

