-- ==== Sys2Proof/Machine/Assembler.lean ====
section
/-! DEFINITION. The spec's notation for host programs (30_encoding.md R93, the spec's decision D25) as inputs of the machine.
`WAIT` depends on the values returned, so it is no fixed list: a run of it is some number of `RD STATE`, each followed by
some number of `TICK`, which is what `asmPolls` lists. -/

namespace Sys2Proof.Machine

/-- `NOP`. -/
def asmNop : Input := .host tagNoOp 0 0

/-- `RD addr`. -/
def asmRd (addr : Addr) : Input := .host tagRead addr 0

/-- `WR addr, data`. -/
def asmWr (addr : Addr) (data : Data) : Input := .host tagWrite addr data

/-- `TICK n`; `TICK` is `TICK 1`. -/
def asmTicks (n : Nat) : List Input := List.replicate n .tick

/-- `GO` = `WR START, 1`. -/
def asmGo : Input := asmWr HostReg.start.addr 1

/-- A run of `WAIT`: one `RD STATE` for each entry, followed by that many `TICK`s. -/
def asmPolls (ticks : List Nat) : List Input := ticks.flatMap fun n => asmRd HostReg.state.addr :: asmTicks n

end Sys2Proof.Machine
end

