-- ==== Sys2Proof/Tests/Slice0.lean ====
section
/-! SUPPORT. The model's own tests. Expected values are those of 95_test_vectors.md (named H1 to H30, U1 to U15), or words
written out from 30_encoding.md; none is the model's own answer. The last part shows, for each statement with hypotheses,
a concrete state and operands that meet them. -/

namespace Sys2Proof.Machine

/-- A field of the next state, none if the step stops. -/
def fieldOf {α : Type} (f : State → α) : Result → Option α
  | .next t => some (f t)
  | .fault _ => none
  | .refused _ => none

/-- A small state at pipeline state `p`, with the values of program P1. -/
def stateAt (p : PipelineState) : State :=
  { State.reset with state := p.code, rdAddr := 0x1000#16, wrAddr := 0x2000#16, len := 64#16 }

/-! ## Well-formedness refuses an ill-formed term for each check -/

theorem test_wf_data_too_wide : (Instr.nop 0#16 0x10000).wf = false := by decide
theorem test_wf_data_widest : (Instr.wrLen 0xFFFF).wf = true := by decide
theorem test_wf_wide_data_fits_wide_port : (Instr.wrRdAddr 0x1FFFF).wfAt 20 = true := by decide
theorem test_wf_read_of_register_is_not_unmapped : (Instr.rdUnmapped 0xFE04#16 0).wf = false := by decide
theorem test_wf_write_of_register_is_not_unmapped : (Instr.wrUnmapped 0xFE00#16 0).wf = false := by decide
theorem test_wf_unmapped_high_byte : (Instr.wrUnmapped 0xFE07#16 0).wf = true := by decide
theorem test_wf_start_other_is_not_one : (Instr.wrStartOther 1).wf = false := by decide
theorem test_wf_valid_code_is_not_invalid : (Instr.uInvalid 4#8).wf = false := by decide

/-! ## Decoding: one word for each constructor, bits 33:32 cmd, 31:16 addr, 15:0 data (R83) -/

theorem test_decode_nop : decode 16 (.ht 0b0000010010001101000101011001111000#34) = .nop 0x1234#16 0x5678 := by decide
theorem test_decode_rd_start : decode 16 (.ht 0b0111111110000000000000000000000000#34) = .rdStart 0 := by decide
theorem test_decode_rd_state : decode 16 (.ht 0b0111111110000000010000000000000000#34) = .rdState 0 := by decide
theorem test_decode_rd_rdaddr : decode 16 (.ht 0b0111111110000000100000000000000011#34) = .rdRdAddr 3 := by decide
theorem test_decode_rd_wraddr : decode 16 (.ht 0b0111111110000001000000000000000000#34) = .rdWrAddr 0 := by decide
theorem test_decode_rd_len : decode 16 (.ht 0b0111111110000001100000000000000000#34) = .rdLen 0 := by decide
theorem test_decode_rd_unmapped : decode 16 (.ht 0b0111111110000000110000000000000000#34) = .rdUnmapped 0xFE03#16 0 := by decide
theorem test_decode_wr_start_go : decode 16 (.ht 0b1011111110000000000000000000000001#34) = .wrStartGo := by decide
theorem test_decode_wr_start_other : decode 16 (.ht 0b1011111110000000000000000100000001#34) = .wrStartOther 0x101 := by decide
theorem test_decode_wr_state : decode 16 (.ht 0b1011111110000000010000000000000111#34) = .wrState 7 := by decide
theorem test_decode_wr_rdaddr : decode 16 (.ht 0b1011111110000000100001000000000000#34) = .wrRdAddr 0x1000 := by decide
theorem test_decode_wr_wraddr : decode 16 (.ht 0b1011111110000001001111111111111000#34) = .wrWrAddr 0xFFF8 := by decide
theorem test_decode_wr_len : decode 16 (.ht 0b1011111110000001101111111111111111#34) = .wrLen 0xFFFF := by decide
theorem test_decode_wr_unmapped : decode 16 (.ht 0b1000010010001101000000000000000101#34) = .wrUnmapped 0x1234#16 5 := by decide
theorem test_decode_cmd_reserved : decode 16 (.ht 0b1111111110000000100001000000000000#34) = .cmdReserved 0xFE02#16 0x1000 := by decide
theorem test_decode_u_idle : decode 16 (.us 0b00000000#8) = .uIdle := by decide
theorem test_decode_u_readblock : decode 16 (.us 0b00000001#8) = .uReadBlock := by decide
theorem test_decode_u_compute1 : decode 16 (.us 0b00000010#8) = .uCompute1 := by decide
theorem test_decode_u_compute2 : decode 16 (.us 0b00000011#8) = .uCompute2 := by decide
theorem test_decode_u_writedigest : decode 16 (.us 0b00000100#8) = .uWriteDigest := by decide
theorem test_decode_u_invalid : decode 16 (.us 0b00001001#8) = .uInvalid 9#8 := by decide

/-- With a 20-bit data port the other fields move up by four bits (R83, H14). -/
theorem test_decode_wide : decode 20 (.ht 0x2FE021FFFF#38) = .wrRdAddr 0x1FFFF := by decide

theorem test_bytes_two_is_no_input : decodeBytes [0#8, 0#8] = .error .noSuchLength := by decide
theorem test_bytes_bit_34_is_no_word : decodeBytes [0#8, 0#8, 0#8, 0#8, 4#8] = .error .strayBitsAboveWord := by decide
theorem test_table_word_ht : decodeTableWord 40 0x2FE000001 = some .wrStartGo := by decide
theorem test_table_word_us : decodeTableWord 8 0x03 = some .uCompute2 := by decide

/-- A word placed right after reset is what the first step runs, for a row of each kind. -/
theorem test_placed_read_runs : fieldOf State.out (step (State.reset.withFetchWord 40 0x1FE010000)) = some 0 := by decide
theorem test_placed_micro_runs : fieldOf State.state (step (State.reset.withFetchWord 8 0x02)) = some 3#8 := by decide
theorem test_placed_writedigest_runs : fieldOf State.state (step (State.reset.withFetchWord 8 0x04)) = some 0#8 := by decide

/-! ## Host commands (95_test_vectors.md section 2.1) -/

/-- H2. -/
theorem test_nop_busy : fieldOf (fun t => (t.out, t.state)) (exec (.nop 0x1234#16 0x5678) (stateAt .compute1)) = some (0, 2#8) := by decide
/-- H4. -/
theorem test_rd_start_busy : fieldOf State.out (exec (.rdStart 0) (stateAt .readBlock)) = some 0 := by decide
/-- H5, H6. -/
theorem test_rd_state_idle : fieldOf State.out (exec (.rdState 0) (stateAt .idle)) = some 0 := by decide
theorem test_rd_state_writedigest : fieldOf State.out (exec (.rdState 0) (stateAt .writeDigest)) = some 4 := by decide
/-- H7, H8. -/
theorem test_rd_rdaddr : fieldOf State.out (exec (.rdRdAddr 0) { stateAt .idle with rdAddr := 0xABCD#16 }) = some 0xABCD := by decide
theorem test_rd_high_byte : fieldOf State.out (exec (.rdUnmapped 0xFE03#16 0) { stateAt .idle with rdAddr := 0xABCD#16 }) = some 0 := by decide
/-- H9, H10. -/
theorem test_rd_wraddr : fieldOf State.out (exec (.rdWrAddr 0) (stateAt .idle)) = some 0x2000 := by decide
theorem test_rd_len_busy : fieldOf State.out (exec (.rdLen 0) { stateAt .compute2 with len := 100#16 }) = some 100 := by decide
/-- H13, H14 (data of a 20-bit port). -/
theorem test_wr_rdaddr : fieldOf State.rdAddr (exec (.wrRdAddr 0x1000) { stateAt .idle with rdAddr := 0#16 }) = some 0x1000#16 := by decide
theorem test_wr_rdaddr_masks : fieldOf State.rdAddr (exec (.wrRdAddr 0x1FFFF) (stateAt .idle)) = some 0xFFFF#16 := by decide
/-- H15. -/
theorem test_wr_wraddr : fieldOf State.wrAddr (exec (.wrWrAddr 0xFFF8) (stateAt .idle)) = some 0xFFF8#16 := by decide
/-- H17, H18. -/
theorem test_wr_len : fieldOf State.len (exec (.wrLen 0xFFFF) (stateAt .idle)) = some 0xFFFF#16 := by decide
theorem test_wr_len_busy : fieldOf State.len (exec (.wrLen 5) { stateAt .readBlock with len := 100#16 }) = some 100#16 := by decide
/-- H19, H20. -/
theorem test_go_busy : fieldOf (fun t => (t.state, t.bytesRead)) (exec .wrStartGo { stateAt .compute1 with bytesRead := 64 }) = some (2#8, 64) := by decide
theorem test_go_idle : fieldOf (fun t => (t.state, t.bytesRead)) (exec .wrStartGo { stateAt .idle with bytesRead := 128 }) = some (1#8, 0) := by decide
/-- H22, H25, H27. -/
theorem test_wr_start_other : fieldOf State.state (exec (.wrStartOther 0x101) (stateAt .idle)) = some 0#8 := by decide
theorem test_wr_state : fieldOf State.state (exec (.wrState 7) (stateAt .idle)) = some 0#8 := by decide
theorem test_wr_unmapped : fieldOf (fun t => (t.rdAddr, t.mem)) (exec (.wrUnmapped 0xFE03#16 0x12) (stateAt .idle)) = some (0x1000#16, []) := by decide
/-- H28. -/
theorem test_cmd_reserved :
    exec (.cmdReserved 0xFE02#16 0x1000) (stateAt .idle) =
      .next { stateAt .idle with refusalMark := some .reservedCommandTag } := rfl
/-- R186: the mark is kept, over a reset too. -/
theorem test_refusal_mark_kept :
    fieldOf State.refusalMark (step { stateAt .idle with refusalMark := some .reservedCommandTag, pending := [.reset] }) =
      some (some .reservedCommandTag) := by decide

/-! ## Micro operations (95_test_vectors.md section 2.2) -/

/-- `M[0x1000 + j] = j` for j in 0..63 (U2). -/
def rampMemory : Memory := (List.range 64).map fun j => (0x1000 + j, BitVec.ofNat 8 j)

/-- `block_buffer` of U2, most significant byte first. -/
def rampBlock : BitVec 512 :=
  0x000102030405060708090a0b0c0d0e0f101112131415161718191a1b1c1d1e1f202122232425262728292a2b2c2d2e2f303132333435363738393a3b3c3d3e3f#512

/-- U1. -/
theorem test_u_idle : fieldOf (fun t => (t.state, t.bytesRead)) (exec .uIdle (stateAt .idle)) = some (0#8, 0) := by decide
/-- U2. -/
theorem test_u_readblock :
    fieldOf (fun t => (t.blockBuffer, t.bytesRead, t.state)) (exec .uReadBlock { stateAt .readBlock with mem := rampMemory }) =
      some (rampBlock, 64, 2#8) := by decide +kernel
/-- U5: the base wraps; U6: the counter does not. -/
theorem test_u_readblock_base_wraps : blockBase { stateAt .readBlock with rdAddr := 0xFFC0#16, bytesRead := 64 } = 0#16 := by decide
/-- U7. -/
theorem test_u_compute1 : fieldOf State.state (exec .uCompute1 (stateAt .compute1)) = some 3#8 := by decide
/-- U8: the block reaches the hash in memory order, and 64 < 64 is false. -/
theorem test_u_compute2 :
    fieldOf (fun t => (t.hashMsg, t.state)) (exec .uCompute2 { stateAt .compute2 with blockBuffer := rampBlock, bytesRead := 64 }) =
      some ((List.range 64).map (BitVec.ofNat 8), 4#8) := by decide +kernel
/-- U9: `len` = 65 goes on. -/
theorem test_u_compute2_goes_on :
    fieldOf State.state (exec .uCompute2 { stateAt .compute2 with bytesRead := 64, len := 65#16 }) = some 1#8 := by decide

/-- The digest_buffer of U8 and U13. -/
def sampleDigest : BitVec 160 := 0xc77e916956c6fab8d00ecebf3521fa4f518d13c6#160

/-- U13 at the lowest address of the digest region: `M[0x2000]` is the most significant byte of digest_buffer. -/
theorem test_u_writedigest_first :
    fieldOf (fun t => t.mem.read 0x2000#16) (exec .uWriteDigest { stateAt .writeDigest with digestBuffer := sampleDigest }) =
      some 0xc7#8 :=
  congrArg some (Memory.read_writeAll_inside _ _ (digestWrites_nodup _) (w := (0x2000#16, 0xc7#8)) (by decide))

/-- U14: the region wraps, `M[0x000B]` is `d0`. -/
theorem test_u_writedigest_wraps :
    (digestWrites { stateAt .writeDigest with wrAddr := 0xFFF8#16, digestBuffer := 0xc5#160 }).head? = some (0x000B#16, 0xc5#8) := by
  decide

/-- U15. -/
theorem test_u_invalid :
    exec (decodeMicro 9#8) { stateAt .idle with state := 9#8 } =
      .next { stateAt .idle with state := 9#8, faultMark := some .invalidPipelineState } := rfl
/-- R187: the mark is kept by a later host step. -/
theorem test_fault_mark_kept :
    fieldOf (fun t => (t.faultMark, t.out))
        (step { stateAt .idle with state := 9#8, faultMark := some .invalidPipelineState, pending := asmPolls [0] }) =
      some (some .invalidPipelineState, 9) := by decide

/-! ## The hypotheses of the statements can be met -/

/-- A state of a running operation meets the invariant: one block read, `len` as far as it can go. -/
theorem witness_invariant_busy :
    State.Inv { stateAt .readBlock with bytesRead := 65472, len := 65535#16, pending := asmTicks 2 } := by
  constructor <;>
    simp [stateAt, State.reset, State.at, State.legal, PipelineState.code, PipelineState.ofCode, Memory.wf, Memory.wfFrom,
      Config.brWidth]

/-- The same at Idle, with the reserved tag next (NoFaultAndOneRefusal). -/
theorem witness_invariant_refused :
    State.Inv { stateAt .idle with pending := [.host 3#2 0#16 0] } ∧
      step { stateAt .idle with pending := [.host 3#2 0#16 0] } =
        .next { stateAt .idle with refusalMark := some .reservedCommandTag } := by
  refine ⟨?_, rfl⟩
  constructor <;> simp [stateAt, State.reset, State.at, State.legal, PipelineState.code, PipelineState.ofCode, Memory.wf, Memory.wfFrom]

/-- StepKeepsTheInvariant, CounterNeverWraps: the last block of the longest message. -/
theorem witness_counter_at_its_end :
    ∃ t, exec .uReadBlock { stateAt .readBlock with bytesRead := 65472, len := 65535#16 } = .next t ∧ t.bytesRead.toNat = 65536 :=
  ⟨_, rfl, by decide⟩

/-- StepKeepsTheInvariant, StateChangesOnlyAsAllowed: a legal state whose step answers a next state. -/
theorem witness_legal_steps :
    (stateAt .readBlock).legal = true ∧ ∃ t, step { stateAt .readBlock with pending := asmTicks 2 } = .next t ∧ t.legal = true :=
  ⟨by decide, _, rfl, by decide⟩

/-- The clauses of StateChangesOnlyAsAllowed and StepsThatChangeTheHiddenRegisters: an accepted start trigger. -/
theorem witness_start_trigger_step :
    ∃ t, step { stateAt .idle with bytesRead := 64, pending := [asmGo] } = .next t ∧ t.bytesRead = 0 ∧ t.at .readBlock :=
  ⟨_, rfl, rfl, rfl⟩

/-- StepsThatChangeTheHiddenRegisters: a ReadBlock changes bytes_read and block_buffer, a Compute2 hash_msg and
digest_buffer (from a value that is not the digest, whatever the hash). -/
theorem witness_readblock_changes_counter :
    ∃ t, step { stateAt .readBlock with pending := asmTicks 1 } = .next t ∧ t.bytesRead ≠ 0 := ⟨_, rfl, by decide⟩
theorem witness_compute2_changes_message :
    ∃ t, step { stateAt .compute2 with pending := asmTicks 1 } = .next t ∧ t.hashMsg ≠ [] := ⟨_, rfl, by decide⟩
theorem witness_readblock_changes_block :
    ∃ t, step { stateAt .readBlock with mem := rampMemory, pending := asmTicks 1 } = .next t ∧ t.blockBuffer ≠ 0 :=
  ⟨_, rfl, by decide +kernel⟩
theorem witness_compute2_changes_digest :
    ∃ s t, step s = .next t ∧ nextInput s = .tick ∧ s.at .compute2 ∧ t.digestBuffer ≠ s.digestBuffer :=
  ⟨{ stateAt .compute2 with digestBuffer := packDigest (Config.hash (blockMessage 0)) + 1#160, pending := asmTicks 1 }, _, rfl,
    rfl, rfl, fun h => by simp [stateAt, State.reset, consumeInput] at h⟩

/-- ResetAbandonsTheOperationAndKeepsMemory: a reset in mid-operation. -/
theorem witness_reset_pending :
    ({ stateAt .compute2 with pending := [.reset, .tick] } : State).pending = .reset :: [.tick] := rfl

/-- RepeatedReadsAgree, StepRunsTheTransaction: two polls of `state` while busy. -/
theorem witness_two_reads_pending :
    ({ stateAt .compute2 with pending := asmPolls [0, 0] } : State).pending =
      .host tagRead HostReg.state.addr 0 :: .host tagRead HostReg.state.addr 0 :: [] := by decide

/-- BusyWritesAreDropped, AddressesAreFrozenWhileBusy, the busy clauses of the Write statements. -/
theorem witness_busy : (stateAt .compute1).isIdle = false ∧ nextInput (stateAt .compute1) ≠ .reset := by decide

/-- IdleWritesStoreMaskedData, StartTriggerArmsThePipeline: an Idle state. -/
theorem witness_idle : (stateAt .idle).isIdle = true := by decide

/-- RegisterRoundTrip. -/
theorem witness_round_trip :
    (stateAt .idle).isIdle = true ∧
      ({ stateAt .idle with pending := [asmWr HostReg.len.addr 0x1FFFF, asmRd HostReg.len.addr] } : State).pending =
        .host tagWrite HostReg.len.addr 0x1FFFF :: .host tagRead HostReg.len.addr 0 :: [] := by decide

/-- OtherStartDataDoesNothing: data that a comparison of the low byte alone would take for a start trigger. -/
theorem witness_start_data : (0x101 : Data) ≠ 1 := by decide

/-- MacroStepChangesOnlyWhatItMay, HostTransactionsIgnoreMemory: both clauses, a Read while busy and a start trigger. -/
theorem witness_macro_step_read :
    ∃ t, exec (decodeTransaction tagRead 0xFE01#16 0) (stateAt .compute1) = .next t ∧ t.out = 2 := ⟨_, rfl, rfl⟩
theorem witness_macro_step_start :
    ∃ t, exec (decodeTransaction tagWrite HostReg.start.addr 1) (stateAt .idle) = .next t ∧ t.at .readBlock := ⟨_, rfl, rfl⟩

/-- OnlyWriteDigestStores. -/
theorem witness_other_instruction : Instr.uCompute2 ≠ .uWriteDigest ∧ ∃ t, exec .uCompute2 (stateAt .compute2) = .next t :=
  ⟨by decide, _, rfl⟩

/-- PipelineReadsOnlyItsBlock: a memory that differs just outside the block, at each end. -/
theorem witness_memory_outside_block :
    ∀ j < 64, (Memory.write [] 0x0FFF#16 1#8).read (blockBase (stateAt .readBlock) + BitVec.ofNat 16 j) =
      (stateAt .readBlock).mem.read (blockBase (stateAt .readBlock) + BitVec.ofNat 16 j) := by
  intro j hj
  refine Memory.read_write_ne [] ?_ 1#8
  revert j
  decide

/-- ReadBlockSeesAnEarlierWrite at both ends of the block. -/
theorem witness_write_before_read :
    ∃ t u, exec .uReadBlock (stateAt .readBlock) = .next t ∧
      exec .uReadBlock (environmentWrite (blockBase (stateAt .readBlock) + BitVec.ofNat 16 63) 7#8 (stateAt .readBlock)) = .next u ∧
      63 < 64 := ⟨_, _, rfl, rfl, by decide⟩

/-- StepRunsTheSelectedMicroOperation: a listed micro step, and none. -/
theorem witness_tick_pending :
    ({ stateAt .compute2 with pending := asmTicks 1 } : State).pending = .tick :: [] ∧
      (stateAt .compute2).state = PipelineState.compute2.code ∧ (stateAt .compute2).pending = [] := by decide

/-- EnvironmentReadsTheLastWrite: the same address and another one. -/
theorem witness_environment_pending :
    ({ stateAt .idle with pending := [.envWrite 0xFFFF#16 1#8, .envRead 0xFFFF#16] } : State).pending =
        .envWrite 0xFFFF#16 1#8 :: .envRead 0xFFFF#16 :: [] ∧
      ({ stateAt .idle with pending := [.envWrite 0xFFFF#16 1#8, .envRead 0#16] } : State).pending =
        .envWrite 0xFFFF#16 1#8 :: .envRead 0#16 :: [] := by decide

/-- PlacedWordRunsNext: the largest word and selector. -/
theorem witness_placed_word : 0x3FFFFFFFF < 2 ^ 34 ∧ 0xFF < 2 ^ 8 := by decide

/-- BusyHostStepsOnlyReturnAValue: a dropped Write. -/
theorem witness_busy_write :
    ({ stateAt .readBlock with pending := [asmWr HostReg.len.addr 5] } : State).isIdle = false ∧ tagWrite ≠ 3#2 ∧
      ({ stateAt .readBlock with pending := [asmWr HostReg.len.addr 5] } : State).pending =
        .host tagWrite HostReg.len.addr 5 :: [] := by decide

/-- Traffic of a host between the micro steps before WriteDigest of a one-block operation: a dropped Write, a transaction
with the reserved tag, polls. -/
def busyTraffic : List Input := asmWr HostReg.len.addr 5 :: .host 3#2 0#16 0 :: asmPolls [1, 2]

theorem busyTraffic_agents : ∀ e ∈ busyTraffic, e = .tick ∨ ∃ cmd addr data, e = .host cmd addr data := by
  intro e he
  cases e with
  | tick => exact .inl rfl
  | host c a d => exact .inr ⟨c, a, d, rfl⟩
  | envRead | envWrite | reset => simp [busyTraffic, asmPolls, asmTicks, asmWr, asmRd] at he

/-- HostTrafficDoesNotDisturbAnOperation. -/
theorem witness_busy_traffic :
    ({ stateAt .readBlock with pending := busyTraffic } : State).at .readBlock ∧
      ({ stateAt .readBlock with pending := busyTraffic } : State).bytesRead = 0 ∧
      ({ stateAt .readBlock with pending := busyTraffic } : State).pending = busyTraffic ∧
      (∀ e ∈ busyTraffic, e = .tick ∨ ∃ cmd addr data, e = .host cmd addr data) ∧
      busyTraffic.count .tick ≤ 3 * blockCount ({ stateAt .readBlock with pending := busyTraffic } : State).len.toNat :=
  ⟨rfl, rfl, rfl, busyTraffic_agents, by decide⟩

/-- HostTrafficDoesNotDisturbAWholeOperation. -/
theorem witness_whole_traffic :
    ({ stateAt .readBlock with pending := busyTraffic ++ [.tick] } : State).at .readBlock ∧
      ({ stateAt .readBlock with pending := busyTraffic ++ [.tick] } : State).bytesRead = 0 ∧
      ({ stateAt .readBlock with pending := busyTraffic ++ [.tick] } : State).pending = busyTraffic ++ [.tick] ∧
      (∀ e ∈ busyTraffic, e = .tick ∨ ∃ cmd addr data, e = .host cmd addr data) ∧
      busyTraffic.count .tick = 3 * blockCount (stateAt .readBlock).len.toNat :=
  ⟨rfl, rfl, rfl, busyTraffic_agents, by decide⟩

/-- A state at an invalid code, from a corrupted start (R92). -/
def corrupted (code : BitVec 8) (es : List Input) : State := { stateAt .idle with state := code, pending := es }

/-- ReservedTagIsRefused, MarksAreKeptAndSetOnlyByTheirSteps: a step that sets the refusal mark. -/
theorem witness_refused_step :
    ({ stateAt .compute1 with pending := [.host 3#2 7#16 7] } : State).pending = .host 3#2 7#16 7 :: [] ∧
      fieldOf State.refusalMark (step { stateAt .compute1 with pending := [.host 3#2 7#16 7] }) =
        some (some .reservedCommandTag) := by decide

/-- InvalidCodeFaults, MarksAreKeptAndSetOnlyByTheirSteps: steps that set the fault mark, at the least and the greatest
invalid code. -/
theorem witness_faulted_step :
    5 ≤ (corrupted 5#8 [.tick]).state.toNat ∧ (corrupted 5#8 [.tick]).legal = false ∧
      fieldOf State.faultMark (step (corrupted 5#8 [.tick])) = some (some .invalidPipelineState) ∧
      5 ≤ (corrupted 255#8 [.tick]).state.toNat ∧
      fieldOf State.faultMark (step (corrupted 255#8 [.tick])) = some (some .invalidPipelineState) := by decide

/-- RunsWithAMarkedStepDoNotEndWell: a run before each kind of marked step. -/
theorem witness_run_before_mark :
    Host.Core.run core 1 { stateAt .idle with pending := [.tick, .host 3#2 0#16 0] } =
        .next { stateAt .idle with pending := [.host 3#2 0#16 0] } ∧
      nextInput { stateAt .idle with pending := [.host 3#2 0#16 0] } = .host 3#2 0#16 0 ∧
      Host.Core.run core 0 (corrupted 9#8 []) = .next (corrupted 9#8 []) ∧
      nextInput (corrupted 9#8 []) = .tick ∧ (corrupted 9#8 []).legal = false := ⟨rfl, rfl, rfl, rfl, by decide⟩

/-- NoRunFromResetFaults: a list without the reserved tag. -/
theorem witness_no_reserved_tag : ∀ (addr : Addr) (data : Data), Input.host 3#2 addr data ∉ [asmGo, .tick, .reset] := by
  simp [asmGo, asmWr, tagWrite]

/-- CanonicalMemoriesThatReadAlikeAreEqual: a canonical memory that lists the last address, whatever the draw. -/
theorem witness_canonical_memory : Memory.wf [(65535, Config.memDraw 65535 + 1)] = true := by
  simp [Memory.wf, Memory.wfFrom, Memory.unlisted]

/-- DecodeOfEncode, EncodeOfDecode, BytesDecodeBack: well-formed terms at the ends of their operands' ranges. -/
theorem witness_well_formed :
    (Instr.rdUnmapped 0xFFFF#16 0xFFFF).wf = true ∧ (Instr.wrStartOther 0).wf = true ∧ (Instr.uInvalid 5#8).wf = true ∧
      (Instr.uInvalid 255#8).wf = true ∧ (Instr.wrLen 0xFFFFF).wfAt 20 = true ∧ 16 ≤ 20 := by decide

/-- OperationVisitsTheStatesInOrder, BusyReturnsToIdle: the shortest and the longest message. -/
theorem witness_operation_begins :
    (stateAt .readBlock).at .readBlock ∧ (stateAt .readBlock).bytesRead = 0 ∧ (stateAt .readBlock).pending = [] ∧
      blockCount 0 = 1 ∧ blockCount 65535 = 1024 := ⟨rfl, rfl, rfl, by decide, by decide⟩

/-- OperationWritesTheDigestAndReturnsToIdle. -/
theorem witness_operation_triggered :
    ({ stateAt .idle with pending := [asmGo] } : State).isIdle = true ∧
      ({ stateAt .idle with pending := [asmGo] } : State).pending = [.host tagWrite HostReg.start.addr 1] := by decide

/-- BusyReturnsToIdle: an invariant state with nothing pending. -/
theorem witness_invariant_nothing_pending : State.Inv (stateAt .readBlock) ∧ (stateAt .readBlock).pending = [] := by
  refine ⟨?_, rfl⟩
  constructor <;> simp [stateAt, State.reset, State.at, State.legal, PipelineState.code, PipelineState.ofCode, Memory.wf, Memory.wfFrom]

end Sys2Proof.Machine
end

