-- ==== Sys2Proof/Proofs/PipelineRegisters.lean ====
section
/-! SUPPORT. Which steps touch `state` and the hidden datapath registers (10_state.md sections 3 and 4), said once for a host
transaction, a micro step and a whole step. -/

namespace Sys2Proof.Machine

/-- `t` holds the pipeline's `state` and its hidden registers (R22, R28 to R31) as `s` does. -/
structure State.KeepsPipeline (s t : State) : Prop where
  state : t.state = s.state
  bytesRead : t.bytesRead = s.bytesRead
  blockBuffer : t.blockBuffer = s.blockBuffer
  digestBuffer : t.digestBuffer = s.digestBuffer
  hashMsg : t.hashMsg = s.hashMsg

/-- Legality is a fact about `state` alone (R32). -/
theorem legal_congr {s t : State} (h : t.state = s.state) : t.legal = s.legal := by simp [State.legal, h]

/-- A host transaction leaves the pipeline's registers alone, unless it is a start trigger accepted while Idle (R109, R110). -/
theorem transaction_keepsPipeline_or_arms {c : BitVec 2} {a : Addr} {d : Data} {s t : State}
    (h : exec (decodeTransaction c a d) s = .next t) :
    s.KeepsPipeline t ∨
    c = tagWrite ∧ a = HostReg.start.addr ∧ d = 1 ∧ s.at .idle ∧ t = { armPipeline s with out := 0 } := by
  rcases transaction_cases h with
    ⟨v, -, rfl⟩ | ⟨-, rfl⟩ | ⟨hc, hi, ⟨ha, hd, ht⟩ | ⟨-, rfl⟩ | ⟨-, rfl⟩ | ⟨-, rfl⟩⟩
  case inr.inr.inl => exact .inr ⟨hc, ha, hd, (isIdle_iff s).mp hi, ht⟩
  all_goals exact .inl ⟨rfl, rfl, rfl, rfl, rfl⟩

/-- A step leaves the pipeline's registers alone, unless it is a micro step, an accepted start trigger or a reset. -/
theorem step_keepsPipeline_or_moves {s t : State} (h : step s = .next t) :
    s.KeepsPipeline t ∨
    (∃ p, nextInput s = .tick ∧ s.at p ∧ t = microResult p (consumeInput s)) ∨
    (nextInput s = .host tagWrite HostReg.start.addr 1 ∧ s.at .idle ∧
      t = { armPipeline (consumeInput s) with out := 0 }) ∨
    nextInput s = .reset ∧ t = resetDevice (consumeInput s) := by
  rcases step_cases h with
    ⟨c, a, d, e, hx⟩ | hmicro | ⟨-, -, rfl⟩ | ⟨a, -, rfl⟩ | ⟨a, v, -, rfl⟩ | hreset
  · rcases transaction_keepsPipeline_or_arms hx with hk | ⟨rfl, rfl, rfl, hi, ht⟩
    · exact .inl ⟨hk.state, hk.bytesRead, hk.blockBuffer, hk.digestBuffer, hk.hashMsg⟩
    · exact .inr (.inr (.inl ⟨e, hi, ht⟩))
  · exact .inr (.inl hmicro)
  · exact .inl ⟨rfl, rfl, rfl, rfl, rfl⟩
  · exact .inl ⟨rfl, rfl, rfl, rfl, rfl⟩
  · exact .inl ⟨rfl, rfl, rfl, rfl, rfl⟩
  · exact .inr (.inr (.inr hreset))

/-- A micro operation leaves one of the five codes: the one that R145 to R149 name. -/
theorem microResult_legal {p : PipelineState} {s : State} (h : s.at p) : (microResult p s).legal = true := by
  rw [legal_iff]
  cases p with
  | idle => exact ⟨.idle, h⟩
  | readBlock => exact ⟨.compute1, rfl⟩
  | compute1 => exact ⟨.compute2, rfl⟩
  | compute2 => exact ⟨_, rfl⟩
  | writeDigest => exact ⟨.idle, rfl⟩

/-- Only ReadBlock counts bytes (R146). -/
theorem microResult_bytesRead {p : PipelineState} (s : State) (h : p ≠ .readBlock) :
    (microResult p s).bytesRead = s.bytesRead := by
  cases p
  case readBlock => exact absurd rfl h
  all_goals rfl

/-- Only ReadBlock fills the block buffer (R146). -/
theorem microResult_blockBuffer {p : PipelineState} (s : State) (h : p ≠ .readBlock) :
    (microResult p s).blockBuffer = s.blockBuffer := by
  cases p
  case readBlock => exact absurd rfl h
  all_goals rfl

/-- Only Compute2 takes a digest (R148). -/
theorem microResult_digestBuffer {p : PipelineState} (s : State) (h : p ≠ .compute2) :
    (microResult p s).digestBuffer = s.digestBuffer := by
  cases p
  case compute2 => exact absurd rfl h
  all_goals rfl

/-- Only Compute2 submits bytes to the hash (R148). -/
theorem microResult_hashMsg {p : PipelineState} (s : State) (h : p ≠ .compute2) :
    (microResult p s).hashMsg = s.hashMsg := by
  cases p
  case compute2 => exact absurd rfl h
  all_goals rfl

end Sys2Proof.Machine
end

