-- ==== Sys2Proof/Proofs/PipelineSteps.lean ====
section
/-! PROOFS. The two statements about which steps change `state` and the hidden registers. -/

namespace Sys2Proof.Machine

/-- Settles O35, by the four kinds of step: the pipeline kept, a micro step, an accepted start trigger, a reset. -/
theorem stateChangesOnlyAsAllowed : Obligations.StateChangesOnlyAsAllowed := by
  intro s t hlegal hstep
  rcases step_keepsPipeline_or_moves hstep with hk | ⟨p, e, hp, rfl⟩ | ⟨e, hi, rfl⟩ | ⟨e, rfl⟩
  · exact ⟨(legal_congr hk.state).trans hlegal, .inl hk.state⟩
  · exact ⟨microResult_legal hp, .inr (.inl e)⟩
  · exact ⟨(legal_iff _).mpr ⟨.readBlock, rfl⟩, .inr (.inr (.inr ⟨e, (isIdle_iff s).mpr hi, rfl⟩))⟩
  · exact ⟨(legal_iff _).mpr ⟨.idle, rfl⟩, .inr (.inr (.inl e))⟩

/-- Settles O37, by the same kinds of step: of a micro step each register's frame lemma says at which pipeline state it can
have changed it. -/
theorem stepsThatChangeTheHiddenRegisters : Obligations.StepsThatChangeTheHiddenRegisters := by
  intro s t hstep hreset
  rcases step_keepsPipeline_or_moves hstep with hk | ⟨p, e, hp, rfl⟩ | ⟨e, hi, rfl⟩ | ⟨e, -⟩
  · exact ⟨(absurd hk.bytesRead ·), (absurd hk.blockBuffer ·), (absurd hk.digestBuffer ·), (absurd hk.hashMsg ·)⟩
  · refine ⟨fun hne => .inl ⟨e, ?_⟩, fun hne => ⟨e, ?_⟩, fun hne => ⟨e, ?_⟩, fun hne => .inl ⟨e, ?_⟩⟩
    · exact not_imp_comm.mp (microResult_bytesRead _) hne ▸ hp
    · exact not_imp_comm.mp (microResult_blockBuffer _) hne ▸ hp
    · exact not_imp_comm.mp (microResult_digestBuffer _) hne ▸ hp
    · exact not_imp_comm.mp (microResult_hashMsg _) hne ▸ hp
  · exact ⟨fun _ => .inr ⟨e, hi⟩, (absurd rfl ·), (absurd rfl ·), fun _ => .inr ⟨e, hi⟩⟩
  · exact absurd e hreset

end Sys2Proof.Machine
end

