-- ==== Sys2Proof/Proofs/MemoryAccess.lean ====
section
/-! SUPPORT. Who stores to the MemoryBus (20_memory.md R52, R56): the answers of a host transaction keep it, and an Environment
step at the head of the list is one byte access. -/

namespace Sys2Proof.Machine

/-- A read after a write at any two addresses (R51). -/
theorem Memory.read_write (m : Memory) (a c : Addr) (v : Byte) :
    (m.write a v).read c = if c = a then v else m.read c := by
  split
  · next h => rw [h, Memory.read_write_same]
  · next h => exact Memory.read_write_ne m h v

theorem reply_keepsMem {v : Data} {s t : State} (h : reply v s = .next t) : t.mem = s.mem := by
  rw [reply_eq_next.mp h]

/-- A Write whose effect keeps the MemoryBus keeps it, done or dropped (R109). -/
theorem gatedWrite_keepsMem {f : State → State} {s t : State} (hf : (f s).mem = s.mem)
    (h : gatedWrite f s = .next t) : t.mem = s.mem := by
  rw [gatedWrite_eq_next.mp h]
  cases s.isIdle with
  | true => exact hf
  | false => rfl

theorem consumeInput_of_pending {s : State} {e : Input} {rest : List Input} (h : s.pending = e :: rest) :
    consumeInput s = { s with pending := rest } := by
  rw [consumeInput, h, List.tail_cons]

/-- A listed Environment write is the next step, and is the write of its byte (R9). -/
theorem step_of_envWrite {s : State} {a : Addr} {v : Byte} {rest : List Input}
    (h : s.pending = .envWrite a v :: rest) : step s = .next (environmentWrite a v { s with pending := rest }) := by
  simp [step, nextInput, h, consumeInput_of_pending h]

/-- A listed Environment read is the next step, and is the read of its byte (R9). -/
theorem step_of_envRead {s : State} {a : Addr} {rest : List Input}
    (h : s.pending = .envRead a :: rest) : step s = .next (environmentRead a { s with pending := rest }) := by
  simp [step, nextInput, h, consumeInput_of_pending h]

end Sys2Proof.Machine
end

