-- ==== Sys2Proof/Proofs/MemoryStatements.lean ====
section
/-! PROOFS. The two statements about the accesses of the MemoryBus. -/

namespace Sys2Proof.Machine

/-- Settles O26, by the rows of exec: those that only reply, the gated Writes, and the micro operations and marked steps,
whose next state is given. -/
theorem onlyWriteDigestStores : Obligations.OnlyWriteDigestStores := by
  intro i s t hne h
  cases i with
  | nop | rdStart | rdState | rdRdAddr | rdWrAddr | rdLen | rdUnmapped => exact reply_keepsMem h
  | wrStartGo => exact gatedWrite_keepsMem (f := armPipeline) rfl h
  | wrRdAddr data => exact gatedWrite_keepsMem (f := fun s => { s with rdAddr := maskToRegister data }) rfl h
  | wrWrAddr data => exact gatedWrite_keepsMem (f := fun s => { s with wrAddr := maskToRegister data }) rfl h
  | wrLen data => exact gatedWrite_keepsMem (f := fun s => { s with len := maskToRegister data }) rfl h
  | wrStartOther | wrState | wrUnmapped => exact gatedWrite_keepsMem (f := id) rfl h
  | cmdReserved | uIdle | uReadBlock | uCompute1 | uCompute2 | uInvalid =>
    obtain rfl := Host.Outcome.next.inj h
    rfl
  | uWriteDigest => exact absurd rfl hne

/-- Settles O33: the two listed steps are the write and the read of one byte, so both claims about bytes are the law of a
read after a write. -/
theorem environmentReadsTheLastWrite : Obligations.EnvironmentReadsTheLastWrite := by
  intro s a b v rest h
  exact ⟨_, _, step_of_envWrite h, step_of_envRead rfl, Memory.read_write s.mem a b v,
    fun c => Memory.read_write s.mem a c v, rfl⟩

end Sys2Proof.Machine
end

