-- ==== Sys2Proof/Proofs/OpcodeRows.lean ====
section
/-! SUPPORT. When a row of the opcode table matches a packed word, said over the word's fields (30_encoding.md R83, R95). -/

namespace Sys2Proof

/-- A masked word is a packed transaction exactly when its masked fields are the transaction's (R83). -/
theorem and_eq_packTransaction_iff {dw : Nat} {w m : BitVec (2 + 16 + dw)} {c : BitVec 2} {a : Addr} {d : Data}
    (hd : d < 2 ^ dw) :
    w &&& m = packTransaction dw c a d ↔
      wordCmd dw w &&& wordCmd dw m = c ∧ wordAddr dw w &&& wordAddr dw m = a ∧ wordData dw w &&& wordData dw m = d := by
  have hcmd : wordCmd dw (w &&& m) = wordCmd dw w &&& wordCmd dw m := BitVec.extractLsb'_and
  have haddr : wordAddr dw (w &&& m) = wordAddr dw w &&& wordAddr dw m := BitVec.extractLsb'_and
  have hdata : wordData dw (w &&& m) = wordData dw w &&& wordData dw m := by
    simp only [wordData, BitVec.extractLsb'_and, BitVec.toNat_and]
  rw [← hcmd, ← haddr, ← hdata]
  constructor
  · intro h
    rw [h]
    exact ⟨wordCmd_pack .., wordAddr_pack .., (wordData_pack ..).trans (Nat.mod_eq_of_lt hd)⟩
  · rintro ⟨rfl, rfl, rfl⟩
    exact (pack_fields dw (w &&& m)).symm

/-- A mask of sixteen ones keeps the data field. -/
theorem wordData_and_ones (w : BitVec 34) : wordData 16 w &&& 0xFFFF = wordData 16 w :=
  (Nat.and_two_pow_sub_one_eq_mod _ 16).trans (Nat.mod_eq_of_lt (w.extractLsb' 0 16).isLt)

theorem decodeReg_eq_some_iff {a : Addr} {r : HostReg} : decodeReg a = some r ↔ a = r.addr :=
  ⟨addr_of_decodeReg, fun h => h ▸ decodeReg_addr r⟩

/-- A row that fixes the tag alone: NOP, the two unmapped rows, CMD_RESERVED. -/
def tagRow (name : String) (c : BitVec 2) : OpcodeRow :=
  ⟨name, packTransaction 16 c 0 0, packTransaction 16 (.allOnes 2) 0 0⟩

/-- A row that fixes the tag and a register's address. -/
def registerRow (name : String) (c : BitVec 2) (r : HostReg) : OpcodeRow :=
  ⟨name, packTransaction 16 c r.addr 0, packTransaction 16 (.allOnes 2) (.allOnes 16) 0⟩

/-- The row that fixes the data too: WR_START_GO (R85). -/
def startGoRow : OpcodeRow :=
  ⟨"WR_START_GO", packTransaction 16 tagWrite HostReg.start.addr 1, packTransaction 16 (.allOnes 2) (.allOnes 16) 0xFFFF⟩

/-- The table's rows by their shapes (R95). -/
theorem htRows_eq : htRows =
    [ tagRow "NOP" tagNoOp, registerRow "RD_START" tagRead .start, registerRow "RD_STATE" tagRead .state,
      registerRow "RD_RDADDR" tagRead .rdAddr, registerRow "RD_WRADDR" tagRead .wrAddr,
      registerRow "RD_LEN" tagRead .len, startGoRow, registerRow "WR_STATE" tagWrite .state,
      registerRow "WR_RDADDR" tagWrite .rdAddr, registerRow "WR_WRADDR" tagWrite .wrAddr,
      registerRow "WR_LEN" tagWrite .len, tagRow "CMD_RESERVED" tagReserved, tagRow "RD_UNMAPPED" tagRead,
      registerRow "WR_START_OTHER" tagWrite .start, tagRow "WR_UNMAPPED" tagWrite ] := by
  decide

theorem tagRow_matches {name : String} {c : BitVec 2} {w : BitVec 34} :
    w &&& (tagRow name c).mask = (tagRow name c).pattern ↔ wordCmd 16 w = c := by
  refine (and_eq_packTransaction_iff (dw := 16) (d := 0) (by decide)).trans ?_
  simp [tagRow, wordData_pack, -BitVec.reduceAllOnes]

theorem registerRow_matches {name : String} {c : BitVec 2} {r : HostReg} {w : BitVec 34} :
    w &&& (registerRow name c r).mask = (registerRow name c r).pattern ↔
      wordCmd 16 w = c ∧ decodeReg (wordAddr 16 w) = some r := by
  refine (and_eq_packTransaction_iff (dw := 16) (d := 0) (by decide)).trans ?_
  simp [registerRow, wordData_pack, decodeReg_eq_some_iff, -BitVec.reduceAllOnes]

theorem startGoRow_matches {w : BitVec 34} :
    w &&& startGoRow.mask = startGoRow.pattern ↔
      wordCmd 16 w = tagWrite ∧ decodeReg (wordAddr 16 w) = some .start ∧ wordData 16 w = 1 := by
  refine (and_eq_packTransaction_iff (dw := 16) (d := 1) (by decide)).trans ?_
  simp [startGoRow, wordData_pack, wordData_and_ones, decodeReg_eq_some_iff, -BitVec.reduceAllOnes]

end Sys2Proof
end

