-- ==== Sys2Proof/Proofs/DecodeStatements.lean ====
section
/-! PROOFS. The statement about the decoder and the opcode table. -/

namespace Sys2Proof.Machine

/-- Settles O43, by the tag, the register that the address decodes to, and for a Write of `start` the data: each row of
the table is then one that matches or one that does not. -/
theorem decodeFollowsTheOpcodeTable : Obligations.DecodeFollowsTheOpcodeTable := by
  intro w
  change _ = some (decodeTransaction (wordCmd 16 w) (wordAddr 16 w) (wordData 16 w)).mnemonic
  simp only [tableRow, htRows_eq, List.find?_cons, tagRow_matches, registerRow_matches, startGoRow_matches]
  rcases transaction_split (wordCmd 16 w) (wordAddr 16 w) (wordData 16 w) with
    ⟨hc, e⟩ | ⟨hc, e⟩ | ⟨hc, e⟩ | ⟨hc, e⟩ <;> rw [e, hc]
  · rfl
  · unfold decodeRead
    cases decodeReg (wordAddr 16 w) with
    | none => rfl
    | some r => cases r <;> rfl
  · unfold decodeWrite
    by_cases hd : wordData 16 w = 1 <;> simp only [hd, and_true, and_false, decide_false]
    all_goals
      cases decodeReg (wordAddr 16 w) with
      | none => rfl
      | some r => cases r <;> rfl
  · rfl

end Sys2Proof.Machine
end

