-- ==== Sys2Proof/Proofs/Marks.lean ====
section
/-! SUPPORT. Who sets the marks of R186 and R187, what a step does to the list of the coming steps, and what holds of every
run when each step keeps it. -/

namespace Sys2Proof.Machine

/-- The code selects U_INVALID exactly when it stands for no pipeline state (R92). -/
theorem decodeMicro_eq_uInvalid_iff {c : BitVec 8} : decodeMicro c = .uInvalid c ↔ PipelineState.ofCode c = none := by
  unfold decodeMicro
  cases PipelineState.ofCode c with
  | none => simp
  | some p => cases p <;> simp

/-- A listed host transaction is the next step (R100). -/
theorem step_of_host {s : State} {c : BitVec 2} {a : Addr} {d : Data} {rest : List Input}
    (h : s.pending = .host c a d :: rest) :
    step s = exec (decodeTransaction c a d) { s with pending := rest } := by
  simp [step, nextInput, h, consumeInput_of_pending h]

/-- A listed micro step is the next step (R144). -/
theorem step_of_tick {s : State} {rest : List Input} (h : s.pending = .tick :: rest) :
    step s = exec (decodeMicro s.state) { s with pending := rest } := by
  simp [step, nextInput, h, consumeInput_of_pending h]

/-- A transaction that is not refused keeps the marks and the list, and only one with the reserved tag is refused (R89). -/
theorem transaction_marks {c : BitVec 2} {a : Addr} {d : Data} {s t : State}
    (h : exec (decodeTransaction c a d) s = .next t) :
    t.faultMark = s.faultMark ∧ t.pending = s.pending ∧
      (t.refusalMark = s.refusalMark ∨ c = tagReserved) := by
  rcases transaction_cases h with
    ⟨v, -, rfl⟩ | ⟨hc, rfl⟩ | ⟨-, -, ⟨-, -, rfl⟩ | ⟨-, rfl⟩ | ⟨-, rfl⟩ | ⟨-, rfl⟩⟩
  case inr.inl => exact ⟨rfl, rfl, .inr hc⟩
  all_goals exact ⟨rfl, rfl, .inl rfl⟩

theorem microResult_marks (p : PipelineState) (s : State) :
    (microResult p s).faultMark = s.faultMark ∧ (microResult p s).pending = s.pending ∧
      (microResult p s).refusalMark = s.refusalMark := by
  cases p <;> exact ⟨rfl, rfl, rfl⟩

/-- A step takes one agent's step off the list; the fault mark is kept except by a micro step at an invalid code, the
refusal mark except by a transaction with the reserved tag (R89, R92, R186, R187). -/
theorem step_marks {s t : State} (h : step s = .next t) :
    t.pending = s.pending.tail ∧
    (t.faultMark = s.faultMark ∨ nextInput s = .tick ∧ s.legal = false) ∧
    (t.refusalMark = s.refusalMark ∨ ∃ a d, nextInput s = .host tagReserved a d) := by
  rcases step_cases h with
    ⟨c, a, d, e, hx⟩ | ⟨p, -, -, rfl⟩ | ⟨e, hl, rfl⟩ | ⟨a, -, rfl⟩ | ⟨a, v, -, rfl⟩ | ⟨-, rfl⟩
  · obtain ⟨hfault, hpending, hrefusal⟩ := transaction_marks hx
    exact ⟨hpending, .inl hfault, hrefusal.imp_right fun (hc : c = tagReserved) => ⟨a, d, hc ▸ e⟩⟩
  · obtain ⟨hfault, hpending, hrefusal⟩ := microResult_marks p (consumeInput s)
    exact ⟨hpending, .inl hfault, .inl hrefusal⟩
  · exact ⟨rfl, .inr ⟨e, hl⟩, .inl rfl⟩
  all_goals exact ⟨rfl, .inl rfl, .inl rfl⟩

/-- The next input is the head of the list, or a micro step where the list is empty (R65, R205). -/
theorem nextInput_mem_or_tick (s : State) : nextInput s ∈ s.pending ∨ nextInput s = .tick := by
  unfold nextInput
  split
  · exact .inr rfl
  · next h => exact .inl (h ▸ List.mem_cons_self)

/-- A predicate that every step keeps holds at the end of every run, and every run has an end. -/
theorem run_keeps {P : State → Prop} (hstep : ∀ s t, P s → step s = .next t → P t) (k : Nat) {s : State} (hs : P s) :
    ∃ t : State, Host.Core.run core k s = .next t ∧ P t := by
  induction k generalizing s with
  | zero => exact ⟨s, rfl, hs⟩
  | succ k ih =>
    obtain ⟨u, hu⟩ := step_total s
    obtain ⟨t, ht, hPt⟩ := ih (hstep s u hs hu)
    refine ⟨t, ?_, hPt⟩
    rw [← ht]
    simp only [Host.Core.run, core, hu]

/-- Legal and without a fault mark: what R32 and R187 ask of a run from reset. -/
structure State.Unfaulted (s : State) : Prop where
  legal : s.legal = true
  noFault : s.faultMark = none

/-- Without a refusal mark, and no transaction with the reserved tag to come. -/
structure State.Unrefused (s : State) : Prop where
  noRefusal : s.refusalMark = none
  noneToCome : ∀ a d, .host tagReserved a d ∉ s.pending

theorem step_keeps_unfaulted (s t : State) (hs : s.Unfaulted) (h : step s = .next t) : t.Unfaulted := by
  obtain ⟨-, hfault, -⟩ := step_marks h
  refine ⟨(stateChangesOnlyAsAllowed s t hs.legal h).1, ?_⟩
  rcases hfault with hkept | ⟨-, hillegal⟩
  · exact hkept.trans hs.noFault
  · exact absurd (hs.legal.symm.trans hillegal) (by decide)

theorem step_keeps_unrefused (s t : State) (hs : s.Unrefused) (h : step s = .next t) : t.Unrefused := by
  obtain ⟨hpending, -, hrefusal⟩ := step_marks h
  refine ⟨?_, fun a d hmem => hs.noneToCome a d (List.mem_of_mem_tail (hpending ▸ hmem))⟩
  rcases hrefusal with hkept | ⟨a, d, hnext⟩
  · exact hkept.trans hs.noRefusal
  · rcases nextInput_mem_or_tick s with hmem | htick
    · exact absurd (hnext ▸ hmem) (hs.noneToCome a d)
    · cases hnext.symm.trans htick

end Sys2Proof.Machine
end

