-- ==== Sys2Proof/Proofs/MarkStatements.lean ====
section
/-! PROOFS. The statements about the two marked steps, and about the runs from reset. -/

namespace Sys2Proof.Machine

/-- Settles O17: the transaction's row is CMD_RESERVED, and the step runs that row on the state less the list's head. -/
theorem reservedTagIsRefused : Obligations.ReservedTagIsRefused := by
  intro a d s
  exact ⟨rfl, rfl, fun rest h => step_of_host h⟩

/-- Settles O25: the codes that select U_INVALID are those that stand for no pipeline state. -/
theorem invalidCodeFaults : Obligations.InvalidCodeFaults := by
  refine ⟨fun c s => rfl, fun c => ?_, fun s rest hcode hpending => ?_⟩
  · rw [decodeMicro_eq_uInvalid_iff, ofCode_none]
  · rw [step_of_tick hpending, exec_decodeMicro_invalid ((ofCode_none _).mpr hcode)]
    rfl

/-- Settles O55: from reset a state stays legal, so no step sets the fault mark; and only a listed transaction with the
reserved tag sets the refusal mark. -/
theorem noRunFromResetFaults : Obligations.NoRunFromResetFaults := by
  intro k es
  have hunfaulted : State.Unfaulted { State.reset with pending := es } := ⟨rfl, rfl⟩
  obtain ⟨t, ht, hwell⟩ := run_keeps step_keeps_unfaulted k hunfaulted
  refine ⟨t, ht, hwell.noFault, fun hes => ?_⟩
  have hunrefused : State.Unrefused { State.reset with pending := es } := ⟨rfl, hes⟩
  obtain ⟨u, hu, hclean⟩ := run_keeps step_keeps_unrefused k hunrefused
  obtain rfl : t = u := Host.Outcome.next.inj (ht.symm.trans hu)
  exact ⟨hclean.noRefusal, hwell.noFault⟩

end Sys2Proof.Machine
end

