-- ==== Sys2Proof/Proofs/HostCommands.lean ====
section
/-! SUPPORT. What a Read and a Write answer in each pipeline position (40_host_commands.md R102, R109), and what a host
transaction can do to a busy block. -/

namespace Sys2Proof.Machine

/-- An address that decodes to no register is none of the five register addresses (R84). -/
theorem ne_addr_of_decodeReg_none {a : Addr} (h : decodeReg a = none) (r : HostReg) : a ≠ r.addr := by
  rintro rfl
  cases (decodeReg_addr r).symm.trans h

/-- While Idle a Write has its effect (R109). -/
theorem gatedWrite_of_idle {s : State} (f : State → State) (h : s.isIdle = true) :
    gatedWrite f s = .next { f s with out := 0 } := by
  rw [gatedWrite_eq_next, h, if_pos rfl]

/-- While busy a Write is dropped (R109). -/
theorem gatedWrite_of_busy {s : State} (f : State → State) (h : s.isIdle = false) :
    gatedWrite f s = .next { s with out := 0 } := by
  rw [gatedWrite_eq_next, h, if_neg Bool.false_ne_true]

/-- A Write without an effect answers alike, Idle or busy. -/
theorem gatedWrite_id (s : State) : gatedWrite id s = .next { s with out := 0 } := by
  rw [gatedWrite_eq_next, id, ite_self]

/-! The Writes of the three storing registers are gated Writes of their effects (R113 to R115). -/

theorem exec_wrRdAddr (d : Data) (s : State) :
    exec (.wrRdAddr d) s = gatedWrite (fun s => { s with rdAddr := maskToRegister d }) s := rfl

theorem exec_wrWrAddr (d : Data) (s : State) :
    exec (.wrWrAddr d) s = gatedWrite (fun s => { s with wrAddr := maskToRegister d }) s := rfl

theorem exec_wrLen (d : Data) (s : State) :
    exec (.wrLen d) s = gatedWrite (fun s => { s with len := maskToRegister d }) s := rfl

/-- What a Write answers, with what a Read returns of any state that it answers, as R113 to R115 put it. -/
theorem read_after_write {answer : Result} {r : Instr} {u : State} {v : Data} (hwrite : answer = .next u)
    (hread : exec r u = .next { u with out := v }) :
    answer = .next u ∧ ∀ t, answer = .next t → exec r t = .next { t with out := v } := by
  refine ⟨hwrite, fun t h => ?_⟩
  obtain rfl := Host.Outcome.next.inj (hwrite.symm.trans h)
  exact hread

theorem maskToRegister_eq_mod (d : Data) : maskToRegister d = BitVec.ofNat 16 (d % 2 ^ 16) :=
  BitVec.eq_of_toNat_eq (by simp [maskToRegister])

theorem maskToRegister_toNat (d : Data) : (maskToRegister d).toNat = d % 2 ^ 16 := BitVec.toNat_ofNat ..

/-- A host transaction leaves a busy block as it is, but for the value returned, or by the reserved tag the refusal mark
(R109, R89). -/
theorem transaction_of_busy {s t : State} {c : BitVec 2} {a : Addr} {d : Data} (hbusy : s.isIdle = false)
    (h : exec (decodeTransaction c a d) s = .next t) :
    (∃ v, c ≠ tagReserved ∧ t = { s with out := v }) ∨ c = tagReserved ∧ t = refuseStep .reservedCommandTag s := by
  rcases transaction_cases h with hreturns | hrefused | ⟨-, hidle, -⟩
  · exact .inl hreturns
  · exact .inr hrefused
  · cases hbusy.symm.trans hidle

/-- `t` holds the address registers and the length (R24 to R26) as `s` does. -/
def State.KeepsAddresses (s t : State) : Prop := t.rdAddr = s.rdAddr ∧ t.wrAddr = s.wrAddr ∧ t.len = s.len

theorem microResult_keepsAddresses (p : PipelineState) (s : State) : s.KeepsAddresses (microResult p s) := by
  cases p <;> exact ⟨rfl, rfl, rfl⟩

theorem transaction_keepsAddresses {s t : State} {c : BitVec 2} {a : Addr} {d : Data} (hbusy : s.isIdle = false)
    (h : exec (decodeTransaction c a d) s = .next t) : s.KeepsAddresses t := by
  rcases transaction_of_busy hbusy h with ⟨v, -, rfl⟩ | ⟨-, rfl⟩ <;> exact ⟨rfl, rfl, rfl⟩

end Sys2Proof.Machine
end

