-- ==== Sys2Proof/Proofs/HostCommandStatements.lean ====
section
/-! PROOFS. The statements about single host commands, and about host steps and the address registers while busy. -/

namespace Sys2Proof.Machine

/-- Settles O5: the row of NOP replies 0. -/
theorem nopReturnsZeroAndKeepsState : Obligations.NopReturnsZeroAndKeepsState := fun _ _ _ => rfl

/-- Settles O6: each of the three rows replies its register's number, and the registers hold the draws at reset. -/
theorem registerReadsReturnTheStoredValue : Obligations.RegisterReadsReturnTheStoredValue :=
  ⟨fun _ _ => ⟨rfl, rfl, rfl⟩, fun _ => ⟨rfl, rfl, rfl⟩⟩

/-- Settles O9, by the register that the address decodes to: one that decodes to none is no register's address. -/
theorem everyReadAddressReturnsItsValue : Obligations.EveryReadAddressReturnsItsValue := by
  intro a d s
  change exec (decodeRead a d) s = _
  cases h : decodeReg a with
  | none =>
    have hne := ne_addr_of_decodeReg_none h
    simp only [HostReg.addr] at hne
    rw [if_neg (hne .state), if_neg (hne .rdAddr), if_neg (hne .wrAddr), if_neg (hne .len), decodeRead, h]
    rfl
  | some r =>
    obtain rfl := addr_of_decodeReg h
    cases r <;> rfl

/-- Settles O10: the value of a Read depends on neither `out` nor the list, which is all that the first Read changes. -/
theorem repeatedReadsAgree : Obligations.RepeatedReadsAgree := by
  intro a d d' s rest h
  refine ⟨_, (step_of_host h).trans (everyReadAddressReturnsItsValue ..), ?_⟩
  exact (step_of_host rfl).trans (everyReadAddressReturnsItsValue ..)

/-- Settles O11: a Write that is not dropped is one while Idle. -/
theorem busyWritesAreDropped : Obligations.BusyWritesAreDropped := by
  intro a d s hbusy
  rcases exec_decodeWrite a d s with hdropped | ⟨hidle, -⟩
  · exact hdropped
  · cases hbusy.symm.trans hidle

/-- Settles O12: the gate of each of the three Writes, open while Idle; the Read then replies the masked number. -/
theorem idleWritesStoreMaskedData : Obligations.IdleWritesStoreMaskedData := by
  intro d d' s
  rw [← maskToRegister_eq_mod, ← maskToRegister_toNat, exec_wrRdAddr, exec_wrWrAddr, exec_wrLen]
  constructor
  · intro hidle
    exact ⟨read_after_write (gatedWrite_of_idle _ hidle) rfl, read_after_write (gatedWrite_of_idle _ hidle) rfl,
      read_after_write (gatedWrite_of_idle _ hidle) rfl⟩
  · intro hbusy
    exact ⟨gatedWrite_of_busy _ hbusy, gatedWrite_of_busy _ hbusy, gatedWrite_of_busy _ hbusy⟩

/-- Settles O14: the gate of the trigger, and the comparison of the whole data with 1 in the decoder (R85). -/
theorem startTriggerArmsThePipeline : Obligations.StartTriggerArmsThePipeline := by
  refine ⟨fun s hidle => gatedWrite_of_idle _ hidle, fun s hbusy => gatedWrite_of_busy _ hbusy, fun d => ?_⟩
  change (if d = 1 then Instr.wrStartGo else .wrStartOther d) = .wrStartGo ↔ d = 1
  split <;> simp [*]

/-- Settles O15: the decoder's other branch, whose row is a Write without an effect. -/
theorem otherStartDataDoesNothing : Obligations.OtherStartDataDoesNothing :=
  fun _ s => ⟨fun hne => if_neg hne, gatedWrite_id s⟩

/-- Settles O36, by the agents' steps: a host transaction cannot store while busy, and no other agent's step but a reset
has those registers. -/
theorem addressesAreFrozenWhileBusy : Obligations.AddressesAreFrozenWhileBusy := by
  intro s t hbusy hreset hstep
  rcases step_cases hstep with
    ⟨c, a, d, -, hx⟩ | ⟨p, -, -, rfl⟩ | ⟨-, -, rfl⟩ | ⟨a, -, rfl⟩ | ⟨a, v, -, rfl⟩ | ⟨e, -⟩
  · exact transaction_keepsAddresses (s := consumeInput s) hbusy hx
  · exact microResult_keepsAddresses p (consumeInput s)
  · exact ⟨rfl, rfl, rfl⟩
  · exact ⟨rfl, rfl, rfl⟩
  · exact ⟨rfl, rfl, rfl⟩
  · exact absurd e hreset

/-- Settles O38: the step runs the transaction's row, which while busy and without the reserved tag only returns a value. -/
theorem busyHostStepsOnlyReturnAValue : Obligations.BusyHostStepsOnlyReturnAValue := by
  intro c a d s rest hbusy htag hpending
  obtain ⟨t, ht⟩ := transaction_total c a d { s with pending := rest }
  rcases transaction_of_busy (s := { s with pending := rest }) hbusy ht with ⟨v, -, rfl⟩ | ⟨hc, -⟩
  · exact ⟨v, (step_of_host hpending).trans ht⟩
  · exact absurd hc htag

end Sys2Proof.Machine
end

