-- ==== Sys2Proof/Proofs/BlockOrder.lean ====
section
/-! SUPPORT. The byte orders of a whole operation: the block as the hash gets it (20_memory.md R59), the message as blocks
(41_pipeline.md R151), and where the bytes of the digest go (R60, R149). -/

namespace Sys2Proof.Machine

/-- Byte `j` of a block, counted from its base, is byte field `63 - j` (R59). -/
theorem blockAddr_rev (base : Addr) {j : Nat} (hj : j < 64) : blockAddr base (63 - j) = base + BitVec.ofNat 16 j := by
  apply BitVec.eq_of_toNat_eq
  simp only [blockAddr, BitVec.toNat_sub, BitVec.toNat_add, BitVec.toNat_ofNat]
  omega

/-- An assembled block reaches the hash as its bytes in increasing address order (R59). -/
theorem blockMessage_assembleBlock (m : Memory) (base : Addr) :
    blockMessage (assembleBlock m base) = messageBytes m base 64 := by
  refine List.map_congr_left fun j hj => ?_
  have hj : j < 64 := List.mem_range.mp hj
  rw [byteField_assembleBlock m base (by omega), blockAddr_rev base hj]

theorem messageBytes_append (m : Memory) (start : Addr) (n k : Nat) :
    messageBytes m start (n + k) = messageBytes m start n ++ messageBytes m (start + BitVec.ofNat 16 n) k := by
  simp [messageBytes, List.range_add, BitVec.ofNat_add, BitVec.add_assoc, Function.comp_def]

/-- Byte field `i` of digest_buffer goes to byte `19 - i` of the digest's region (R60, R149). -/
theorem digestAddr_eq (s : State) {i : Nat} (hi : i < 20) : digestAddr s i = s.wrAddr + BitVec.ofNat 16 (19 - i) := by
  apply BitVec.eq_of_toNat_eq
  simp only [digestAddr, BitVec.toNat_sub, BitVec.toNat_add, BitVec.toNat_ofNat]
  omega

theorem mem_digestWrites {s : State} {w : Addr × Byte} :
    w ∈ digestWrites s ↔ ∃ i < 20, w = (digestAddr s i, byteField s.digestBuffer i) := by
  simp [digestWrites, eq_comm]

/-- After WriteDigest byte `j` of the digest's region is byte field `19 - j` (R60, R149). -/
theorem read_digestWrites_inside (s : State) (m : Memory) (j : Fin 20) :
    (m.writeAll (digestWrites s)).read (s.wrAddr + BitVec.ofNat 16 j) = byteField s.digestBuffer j.rev := by
  have haddr : digestAddr s j.rev = s.wrAddr + BitVec.ofNat 16 j := by
    rw [digestAddr_eq s j.rev.isLt, Fin.val_rev]
    congr 2
    omega
  rw [← haddr]
  exact Memory.read_writeAll_inside _ m (digestWrites_nodup s) (mem_digestWrites.mpr ⟨j.rev, j.rev.isLt, rfl⟩)

/-- WriteDigest leaves every byte outside the digest's region (R149). -/
theorem read_digestWrites_outside (s : State) (m : Memory) {a : Addr}
    (ha : ∀ j < 20, a ≠ s.wrAddr + BitVec.ofNat 16 j) : (m.writeAll (digestWrites s)).read a = m.read a := by
  refine Memory.read_writeAll_outside _ m a fun w hw => ?_
  obtain ⟨i, hi, rfl⟩ := mem_digestWrites.mp hw
  change a ≠ digestAddr s i
  rw [digestAddr_eq s hi]
  exact ha _ (by omega)

/-- Byte field `i` of a packed digest, as the primitive's byte `i` (R142, R148). -/
theorem byteField_packDigest_fin (d : Vector Byte Config.digestBytes) (i : Fin 20) :
    byteField (packDigest d) i = d[i] := by
  rw [byteField_packDigest d i.isLt]
  simp [digestByte]

end Sys2Proof.Machine
end

