-- ==== Sys2Proof/Proofs/Operation.lean ====
section
/-! SUPPORT. A run of micro steps alone: its steps one after another, and a whole operation block by block (41_pipeline.md
section 3). -/

namespace Sys2Proof.Machine

/-! ### Runs -/

theorem run_succ {s t : State} (h : step s = .next t) (k : Nat) : Host.Core.run core (k + 1) s = Host.Core.run core k t := by
  simp only [Host.Core.run, core, h]

theorem run_one {s t : State} (h : step s = .next t) : Host.Core.run core 1 s = .next t := run_succ h 0

/-- A run goes on from where a shorter one ends. -/
theorem run_add {m : Nat} {s t : State} (h : Host.Core.run core m s = .next t) (n : Nat) :
    Host.Core.run core (m + n) s = Host.Core.run core n t := by
  induction m generalizing s with
  | zero =>
    obtain rfl := Host.Outcome.next.inj h
    rw [Nat.zero_add]
  | succ m ih =>
    obtain ⟨u, hu⟩ := step_total s
    rw [Nat.add_right_comm, run_succ hu]
    exact ih ((run_succ hu m).symm.trans h)

/-- Every run has an end (R180). -/
theorem run_total (k : Nat) (s : State) : ∃ t : State, Host.Core.run core k s = .next t := by
  obtain ⟨t, ht, -⟩ := run_keeps (P := fun _ => True) (fun _ _ _ _ => trivial) k (s := s) trivial
  exact ⟨t, ht⟩

/-- With nothing pending the step is the micro step of `state` (R144, R205). -/
theorem step_of_nothing_pending {s : State} (hnone : s.pending = []) : step s = exec (decodeMicro s.state) s := by
  have hsame : consumeInput s = s := by rw [consumeInput, hnone, List.tail_nil, ← hnone]
  rw [step, nextInput, hnone, hsame]

theorem step_at {s : State} {p : PipelineState} (hat : s.at p) (hnone : s.pending = []) :
    step s = .next (microResult p s) := by
  rw [step_of_nothing_pending hnone, show s.state = p.code from hat, exec_decodeMicro]

/-- With nothing pending, nothing is pending after any number of steps. -/
theorem run_nothing_pending {s t : State} {k : Nat} (hnone : s.pending = []) (h : Host.Core.run core k s = .next t) :
    t.pending = [] := by
  have hkeeps : ∀ u v : State, u.pending = [] → step u = .next v → v.pending = [] := fun u v hu hstep => by
    rw [(step_marks hstep).1, hu, List.tail_nil]
  obtain ⟨t', ht', hnone'⟩ := run_keeps hkeeps k hnone
  obtain rfl := Host.Outcome.next.inj (h.symm.trans ht')
  exact hnone'

/-- An Idle block with nothing pending stays as it is (R145). -/
theorem run_of_idle {s : State} (hidle : s.at .idle) (hnone : s.pending = []) (k : Nat) :
    Host.Core.run core k s = .next s := by
  induction k with
  | zero => rfl
  | succ k ih => rw [run_succ (step_at hidle hnone), microResult, ih]

/-- So a run that ends busy begins busy. -/
theorem busy_of_run_busy {s t : State} {k : Nat} (hnone : s.pending = []) (h : Host.Core.run core k s = .next t)
    (hbusy : t.isIdle = false) : s.isIdle = false := by
  by_contra hs
  have hidle : s.isIdle = true := Bool.eq_true_of_not_eq_false hs
  rw [run_of_idle ((isIdle_iff s).mp hidle) hnone] at h
  obtain rfl := Host.Outcome.next.inj h
  exact hs hbusy

/-! ### One block -/

/-- The state after the ReadBlock, Compute1, Compute2 triple of one block (R146 to R148). -/
def blockResult (s : State) : State := microResult .compute2 (microResult .compute1 (microResult .readBlock s))

theorem run_block {s : State} (hat : s.at .readBlock) (hnone : s.pending = []) :
    Host.Core.run core 3 s = .next (blockResult s) := by
  have hread := step_at hat hnone
  have hwait : step (microResult .readBlock s) = _ := step_at (p := .compute1) rfl hnone
  have habsorb : step (microResult .compute1 (microResult .readBlock s)) = _ :=
    step_at (p := .compute2) rfl hnone
  rw [run_succ hread, run_succ hwait, run_one habsorb, blockResult]

/-- A block's triple submits the 64 bytes from the block's base (R59). -/
theorem blockResult_hashMsg (s : State) :
    (blockResult s).hashMsg = s.hashMsg ++ messageBytes s.mem (blockBase s) 64 := by
  rw [← blockMessage_assembleBlock]
  rfl

/-- After a block's triple digest_buffer holds the digest of the message so far (R148). -/
theorem blockResult_digestBuffer (s : State) :
    (blockResult s).digestBuffer = packDigest (Config.hash (blockResult s).hashMsg) := rfl

theorem blockResult_bytesRead {s : State} (h : s.bytesRead.toNat < 65536) :
    (blockResult s).bytesRead.toNat = s.bytesRead.toNat + 64 := by
  change (s.bytesRead + BitVec.ofNat Config.brWidth 64).toNat = _
  rw [BitVec.toNat_add]
  exact Nat.mod_eq_of_lt (Nat.add_lt_add_right h 64 |>.trans (by decide))

/-- A block's triple ends where another block begins, or at WriteDigest when the message is read (R148). -/
theorem blockResult_at (s : State) :
    (blockResult s).at (if (blockResult s).bytesRead.toNat < s.len.toNat then .readBlock else .writeDigest) := by
  change (if moreBlocks (blockResult s) = true then PipelineState.readBlock else .writeDigest).code = _
  simp only [moreBlocks_iff]
  rfl

/-! ### A whole operation -/

theorem blockCount_pos (len : Nat) : 0 < blockCount len := by
  unfold blockCount
  omega

theorem blockCount_le (len : BitVec 16) : blockCount len.toNat ≤ 1024 := by
  unfold blockCount
  omega

/-- After a first block, another one follows while the message goes on (R150). -/
theorem lt_blockCount_iff {k len : Nat} (hk : 0 < k) : k < blockCount len ↔ 64 * k < len := by
  unfold blockCount
  omega

/-- A start trigger that is all that is pending arms an Idle block and leaves nothing pending (R110). -/
theorem step_of_startTrigger {s : State} (hidle : s.isIdle = true)
    (hpending : s.pending = [.host tagWrite HostReg.start.addr 1]) :
    step s = .next { armPipeline { s with pending := [] } with out := 0 } :=
  (step_of_host hpending).trans (gatedWrite_of_idle armPipeline (s := { s with pending := [] }) hidle)

/-- `t` holds all that no micro step before WriteDigest changes as `s` does: all but the pipeline's registers. -/
structure State.KeepsTheRest (s t : State) : Prop where
  rdAddr : t.rdAddr = s.rdAddr
  wrAddr : t.wrAddr = s.wrAddr
  len : t.len = s.len
  mem : t.mem = s.mem
  refusalMark : t.refusalMark = s.refusalMark
  faultMark : t.faultMark = s.faultMark
  out : t.out = s.out
  envData : t.envData = s.envData
  pending : t.pending = s.pending

/-- `t` is where the operation that begins in `s` stands after `k` of its blocks: what R150 to R152 say of the position, the
counter, the message and the digest, and that nothing outside the pipeline has changed. -/
structure State.HasAbsorbed (s : State) (k : Nat) (t : State) : Prop extends s.KeepsTheRest t where
  position : t.at (if k < blockCount s.len.toNat then .readBlock else .writeDigest)
  counter : t.bytesRead.toNat = 64 * k
  message : t.hashMsg = s.hashMsg ++ messageBytes s.mem s.rdAddr (64 * k)
  digest : 0 < k → t.digestBuffer = packDigest (Config.hash t.hashMsg)

theorem hasAbsorbed_zero {s : State} (hat : s.at .readBlock) (hcounter : s.bytesRead = 0) : s.HasAbsorbed 0 s where
  position := by rwa [if_pos (blockCount_pos _)]
  counter := by rw [hcounter]; rfl
  message := (List.append_nil _).symm
  digest := fun h => absurd h (Nat.lt_irrefl 0)
  toKeepsTheRest := ⟨rfl, rfl, rfl, rfl, rfl, rfl, rfl, rfl, rfl⟩

/-- One more block, from where the operation stands at ReadBlock. -/
theorem hasAbsorbed_succ {s t : State} {k : Nat} (h : s.HasAbsorbed k t) (hk : k < blockCount s.len.toNat) :
    s.HasAbsorbed (k + 1) (blockResult t) := by
  have hbase : blockBase t = s.rdAddr + BitVec.ofNat 16 (64 * k) := by
    rw [blockBase, ← BitVec.ofNat_toNat, h.counter, h.rdAddr]
  have hcounter : (blockResult t).bytesRead.toNat = 64 * (k + 1) := by
    have := blockCount_le s.len
    have := h.counter
    rw [blockResult_bytesRead (by omega)]
    omega
  constructor
  case position =>
    have hat := blockResult_at t
    simpa only [hcounter, h.len, ← lt_blockCount_iff (Nat.succ_pos k)] using hat
  case counter => exact hcounter
  case message =>
    rw [blockResult_hashMsg, h.message, hbase, h.mem, List.append_assoc,
      ← messageBytes_append, Nat.mul_succ]
  case digest => exact fun _ => blockResult_digestBuffer t
  case toKeepsTheRest =>
    exact ⟨h.rdAddr, h.wrAddr, h.len, h.mem, h.refusalMark, h.faultMark, h.out, h.envData, h.pending⟩

/-- After `3 k` micro steps the operation has absorbed `k` blocks (R153). -/
theorem run_blocks {s : State} (hat : s.at .readBlock) (hcounter : s.bytesRead = 0) (hnone : s.pending = []) {k : Nat}
    (hk : k ≤ blockCount s.len.toNat) :
    ∃ t : State, Host.Core.run core (3 * k) s = .next t ∧ s.HasAbsorbed k t := by
  induction k with
  | zero => exact ⟨s, rfl, hasAbsorbed_zero hat hcounter⟩
  | succ k ih =>
    obtain ⟨t, hrun, habsorbed⟩ := ih (Nat.le_of_succ_le hk)
    have hreading : t.at .readBlock := by simpa only [if_pos (show k < _ from hk)] using habsorbed.position
    have hnone' : t.pending = [] := habsorbed.pending.trans hnone
    refine ⟨blockResult t, ?_, hasAbsorbed_succ habsorbed hk⟩
    rw [Nat.mul_succ, run_add hrun, run_block hreading hnone']

/-- After `3 n(len)` micro steps the operation is at WriteDigest with all its blocks absorbed (R150, R153). -/
theorem run_to_writeDigest {s : State} (hat : s.at .readBlock) (hcounter : s.bytesRead = 0) (hnone : s.pending = []) :
    ∃ t : State, Host.Core.run core (3 * blockCount s.len.toNat) s = .next t ∧ t.at .writeDigest ∧ t.pending = [] ∧
      s.HasAbsorbed (blockCount s.len.toNat) t := by
  obtain ⟨t, hrun, habsorbed⟩ := run_blocks hat hcounter hnone (Nat.le_refl _)
  refine ⟨t, hrun, ?_, habsorbed.pending.trans hnone, habsorbed⟩
  simpa only [if_neg (Nat.lt_irrefl _)] using habsorbed.position

/-- One micro step more, and the digest is written and the block Idle (R149, R153). -/
theorem run_operation {s : State} (hat : s.at .readBlock) (hcounter : s.bytesRead = 0) (hnone : s.pending = []) :
    ∃ t : State, s.HasAbsorbed (blockCount s.len.toNat) t ∧
      Host.Core.run core (3 * blockCount s.len.toNat + 1) s = .next (microResult .writeDigest t) := by
  obtain ⟨t, hrun, hwriting, hnone', habsorbed⟩ := run_to_writeDigest hat hcounter hnone
  exact ⟨t, habsorbed, by rw [run_add hrun, run_one (step_at hwriting hnone')]⟩

end Sys2Proof.Machine
end

