-- ==== Sys2Proof/Proofs/HostTraffic.lean ====
section
/-! SUPPORT. A run with host transactions in it, held against the run of its micro steps alone (95_test_vectors.md section 3,
R183): the two states agree but for what the host sees, and each step keeps that. -/

namespace Sys2Proof.Machine

/-- `t` is `u` but for the value last returned, the refusal mark and the list of the coming steps. -/
def State.AgreesButForHost (t u : State) : Prop :=
  ∃ v mark es, t = { u with out := v, refusalMark := mark, pending := es }

theorem State.AgreesButForHost.eq {t u : State} (h : t.AgreesButForHost u) (hpending : t.pending = u.pending) :
    t = { u with out := t.out, refusalMark := t.refusalMark } := by
  obtain ⟨v, mark, es, rfl⟩ := h
  obtain rfl : es = u.pending := hpending
  rfl

theorem agreesButForHost_pending (s : State) (es : List Input) : s.AgreesButForHost { s with pending := es } :=
  ⟨s.out, s.refusalMark, s.pending, rfl⟩

/-- A micro step does the same whatever the host sees, and leaves that alone. -/
theorem micro_agrees (c : BitVec 8) {t u u' : State} (h : t.AgreesButForHost u)
    (hu : exec (decodeMicro c) u = .next u') : ∃ t', exec (decodeMicro c) t = .next t' ∧ t'.AgreesButForHost u' := by
  obtain ⟨v, mark, es, rfl⟩ := h
  cases hc : PipelineState.ofCode c with
  | none =>
    rw [exec_decodeMicro_invalid hc] at hu ⊢
    obtain rfl := Host.Outcome.next.inj hu
    exact ⟨_, rfl, v, mark, es, rfl⟩
  | some p =>
    obtain rfl := code_of_ofCode hc
    rw [exec_decodeMicro] at hu ⊢
    obtain rfl := Host.Outcome.next.inj hu
    exact ⟨_, rfl, v, mark, es, by cases p <;> rfl⟩

/-- A listed micro step does what the one with nothing pending does. -/
theorem step_tick_agrees {t u u' : State} {rest : List Input} (h : t.AgreesButForHost u)
    (hpending : t.pending = .tick :: rest) (hnone : u.pending = []) (hu : step u = .next u') :
    ∃ t', step t = .next t' ∧ t'.AgreesButForHost u' := by
  obtain ⟨v, mark, es, rfl⟩ := h
  rw [step_of_nothing_pending hnone] at hu
  rw [step_of_tick hpending]
  exact micro_agrees u.state (u := u) ⟨v, mark, rest, rfl⟩ hu

/-- A listed host transaction does nothing to a busy block but for what the host sees (R109, R89). -/
theorem step_host_agrees {t u : State} {c : BitVec 2} {a : Addr} {d : Data} {rest : List Input}
    (h : t.AgreesButForHost u) (hpending : t.pending = .host c a d :: rest) (hbusy : u.isIdle = false) :
    ∃ t', step t = .next t' ∧ t'.AgreesButForHost u := by
  obtain ⟨v, mark, es, rfl⟩ := h
  obtain ⟨t', ht'⟩ := step_total { u with out := v, refusalMark := mark, pending := es }
  refine ⟨t', ht', ?_⟩
  rw [step_of_host hpending] at ht'
  rcases transaction_of_busy (s := { u with out := v, refusalMark := mark, pending := rest }) hbusy ht' with
    ⟨v', -, rfl⟩ | ⟨-, rfl⟩
  · exact ⟨v', mark, rest, rfl⟩
  · exact ⟨v, _, rest, rfl⟩

/-- A list of micro steps and host transactions whose micro steps alone end busy comes to the state that they end in. An
Idle block stays Idle without a start trigger, so the block is busy at every host transaction of the list. -/
theorem run_traffic_agrees {es rest : List Input} {t u u' : State}
    (hagents : ∀ e ∈ es, e = .tick ∨ ∃ c a d, e = .host c a d) (h : t.AgreesButForHost u)
    (hpending : t.pending = es ++ rest) (hnone : u.pending = [])
    (hrun : Host.Core.run core (es.count .tick) u = .next u') (hbusy : u'.isIdle = false) :
    ∃ t' : State, Host.Core.run core es.length t = .next t' ∧ t'.AgreesButForHost u' ∧ t'.pending = rest := by
  induction es generalizing t u with
  | nil =>
    obtain rfl := Host.Outcome.next.inj hrun
    exact ⟨t, rfl, h, hpending⟩
  | cons e es ih =>
    have htail : ∀ {t₁}, step t = .next t₁ → t₁.pending = es ++ rest := fun hstep => by
      rw [(step_marks hstep).1, hpending, List.cons_append, List.tail_cons]
    have hagents' := fun e' he' => hagents e' (List.mem_cons_of_mem e he')
    rcases hagents e List.mem_cons_self with rfl | ⟨c, a, d, rfl⟩
    · obtain ⟨u₁, hu⟩ := step_total u
      obtain ⟨t₁, ht, h₁⟩ := step_tick_agrees h hpending hnone hu
      rw [List.count_cons_self, run_succ hu] at hrun
      rw [List.length_cons, run_succ ht]
      exact ih hagents' h₁ (htail ht) (run_nothing_pending hnone (run_one hu)) hrun
    · rw [List.count_cons_of_ne (by simp)] at hrun
      obtain ⟨t₁, ht, h₁⟩ := step_host_agrees h hpending (busy_of_run_busy hnone hrun hbusy)
      rw [List.length_cons, run_succ ht]
      exact ih hagents' h₁ (htail ht) hnone hrun

end Sys2Proof.Machine
end

