-- ==== Sys2Proof/Proofs/OperationStatements.lean ====
section
/-! PROOFS. The statements about a whole operation, and about an operation with host traffic in it. -/

namespace Sys2Proof.Machine

/-- Settles O48: the trigger arms the block, the `3 n(len)` micro steps absorb its blocks, and the last one writes the
digest. -/
theorem operationWritesTheDigestAndReturnsToIdle : Obligations.OperationWritesTheDigestAndReturnsToIdle := by
  intro s hidle hpending
  have htrigger := step_of_startTrigger hidle hpending
  obtain ⟨t, h, hrun⟩ := run_operation (s := { armPipeline { s with pending := [] } with out := 0 }) rfl rfl rfl
  have hdigest := h.digest (blockCount_pos _)
  refine ⟨microResult .writeDigest t, ?_, rfl, h.counter, h.message, fun i => ?_, fun j => ?_, fun a ha => ?_,
    h.rdAddr, h.wrAddr, h.len, h.out, h.envData, h.refusalMark, h.faultMark, h.pending⟩
  · rw [Nat.add_comm 1, run_succ htrigger]
    exact hrun
  · change byteField t.digestBuffer i = (Config.hash t.hashMsg)[i]
    rw [hdigest, byteField_packDigest_fin]
  · change (t.mem.writeAll (digestWrites t)).read (s.wrAddr + _) = (Config.hash t.hashMsg)[j.rev]
    rw [← show t.wrAddr = s.wrAddr from h.wrAddr, read_digestWrites_inside, hdigest, byteField_packDigest_fin]
  · rw [← show t.wrAddr = s.wrAddr from h.wrAddr] at ha
    exact (read_digestWrites_outside t t.mem ha).trans (congrArg (·.read a) h.mem)

/-- Settles O50: the `3 n(len)` micro steps alone end busy, so fewer of them do too, and host transactions among these
leave the state as it is but for what the host sees. -/
theorem hostTrafficDoesNotDisturbAnOperation : Obligations.HostTrafficDoesNotDisturbAnOperation := by
  intro s es hat hcounter hpending hagents hcount
  obtain ⟨w, hw, hwriting, -⟩ := run_to_writeDigest (s := { s with pending := [] }) hat hcounter rfl
  obtain ⟨u, hu⟩ := run_total (es.count .tick) { s with pending := [] }
  have hnone : u.pending = [] := run_nothing_pending rfl hu
  have hbusy : u.isIdle = false := by
    have hrest := run_add hu (3 * blockCount s.len.toNat - es.count .tick)
    rw [Nat.add_sub_cancel' hcount] at hrest
    exact busy_of_run_busy hnone (hrest.symm.trans hw) (isIdle_of_at hwriting)
  obtain ⟨t, ht, hagrees, hdone⟩ := run_traffic_agrees (rest := []) hagents (agreesButForHost_pending s [])
    (hpending.trans (List.append_nil es).symm) rfl hu hbusy
  exact ⟨t, u, ht, hu, hagrees.eq (hdone.trans hnone.symm)⟩

/-- Settles O51: with all `3 n(len)` micro steps in the list both runs are at WriteDigest, and the micro step that follows
keeps them alike and ends Idle. -/
theorem hostTrafficDoesNotDisturbAWholeOperation : Obligations.HostTrafficDoesNotDisturbAWholeOperation := by
  intro s es hat hcounter hpending hagents hcount
  obtain ⟨w, hw, hwriting, hnone, -⟩ := run_to_writeDigest (s := { s with pending := [] }) hat hcounter rfl
  have hwrite := step_at hwriting hnone
  obtain ⟨t, ht, hagrees, hlast⟩ := run_traffic_agrees hagents (agreesButForHost_pending s []) hpending rfl
    (hcount ▸ hw) (isIdle_of_at hwriting)
  obtain ⟨t', ht', hagrees'⟩ := step_tick_agrees hagrees hlast hnone hwrite
  have hdone : t'.pending = (microResult .writeDigest w).pending := by
    rw [(step_marks ht').1, hlast]
    exact hnone.symm
  have heq := hagrees'.eq hdone
  refine ⟨t', _, (run_add ht 1).trans (run_one ht'), ?_, (run_add hw 1).trans (run_one hwrite), heq⟩
  rw [heq]
  rfl

end Sys2Proof.Machine
end

