-- ==== Sys2Proof/Proofs/MicroOperations.lean ====
section
/-! SUPPORT. The five micro operations as the machine runs them (41_pipeline.md section 2): the addresses, byte fields and
counter of each, in the terms of its rule. -/

namespace Sys2Proof.Machine

/-! ### The meanings -/

theorem exec_uIdle (s : State) : exec .uIdle s = .next (microResult .idle s) := rfl

theorem exec_uReadBlock (s : State) : exec .uReadBlock s = .next (microResult .readBlock s) := rfl

theorem exec_uCompute1 (s : State) : exec .uCompute1 s = .next (microResult .compute1 s) := rfl

theorem exec_uCompute2 (s : State) : exec .uCompute2 s = .next (microResult .compute2 s) := rfl

theorem exec_uWriteDigest (s : State) : exec .uWriteDigest s = .next (microResult .writeDigest s) := rfl

/-! ### ReadBlock -/

/-- An address that counts down from the end of a region, on numbers modulo 65536 (R53). -/
theorem add_sub_eq_ofNat (a : Addr) {n i : Nat} (hi : i ≤ n) (hn : n < 65536) :
    a + BitVec.ofNat 16 n - BitVec.ofNat 16 i = BitVec.ofNat 16 ((a.toNat + n - i) % 65536) := by
  apply BitVec.eq_of_toNat_eq
  simp only [BitVec.toNat_sub, BitVec.toNat_add, BitVec.toNat_ofNat]
  omega

/-- The address of byte field `i` as R146 computes it. -/
theorem blockAddr_eq_ofNat (base : Addr) {i : Nat} (hi : i < 64) :
    blockAddr base i = BitVec.ofNat 16 ((base.toNat + 63 - i) % 65536) :=
  add_sub_eq_ofNat base (Nat.le_of_lt_succ hi) (by decide)

theorem readBlock_byteField (s : State) {i : Nat} (hi : i < 64) :
    byteField (microResult .readBlock s).blockBuffer i = s.mem.read (blockAddr (blockBase s) i) :=
  byteField_assembleBlock s.mem (blockBase s) hi

/-- The counter wraps at its width (R146). -/
theorem readBlock_bytesRead (s : State) :
    (microResult .readBlock s).bytesRead.toNat = (s.bytesRead.toNat + 64) % 2 ^ Config.brWidth :=
  BitVec.toNat_add ..

/-- Below 65536 it does not wrap (R211). -/
theorem readBlock_bytesRead_of_lt {s : State} (h : s.bytesRead.toNat < 65536) :
    (microResult .readBlock s).bytesRead.toNat = s.bytesRead.toNat + 64 :=
  blockResult_bytesRead h

/-- A ReadBlock of a state with the invariant starts below the end of the longest message (R34, R148). -/
theorem State.Inv.bytesRead_lt {s : State} (h : s.Inv) (hat : s.at .readBlock) : s.bytesRead.toNat < 65536 := by
  rcases h.reading hat with hzero | hlt
  · simp [hzero]
  · exact hlt.trans s.len.isLt

/-! ### Compute2 -/

/-- The bytes that reach the hash, by the bits that R148 names. -/
theorem blockMessage_eq_bits (block : BitVec 512) :
    blockMessage block = (List.range 64).map fun i => block.extractLsb' (504 - 8 * i) 8 := by
  refine List.map_congr_left fun i hi => ?_
  rw [byteField, Nat.mul_sub]

/-- The digest is that of the message with the block in it (R148). -/
theorem compute2_byteField (s : State) (i : Fin 20) :
    byteField (microResult .compute2 s).digestBuffer i = (Config.hash (microResult .compute2 s).hashMsg)[i] :=
  byteField_packDigest_fin _ i

/-- The operation goes on exactly while `bytes_read < len` (R148). -/
theorem compute2_state (s : State) :
    (microResult .compute2 s).state =
      if s.bytesRead.toNat < s.len.toNat then PipelineState.readBlock.code else PipelineState.writeDigest.code := by
  simp only [microResult, enter_state, moreBlocks_iff, apply_ite PipelineState.code]

/-! ### WriteDigest -/

/-- The address of byte field `i` as R149 computes it. -/
theorem digestAddr_eq_ofNat (s : State) {i : Nat} (hi : i < 20) :
    digestAddr s i = BitVec.ofNat 16 ((s.wrAddr.toNat + 19 - i) % 65536) :=
  add_sub_eq_ofNat s.wrAddr (Nat.le_of_lt_succ hi) (by decide)

theorem writeDigest_read_inside (s : State) {i : Nat} (hi : i < 20) :
    (microResult .writeDigest s).mem.read (digestAddr s i) = byteField s.digestBuffer i :=
  Memory.read_writeAll_inside _ s.mem (digestWrites_nodup s) (mem_digestWrites.mpr ⟨i, hi, rfl⟩)

theorem writeDigest_read_outside (s : State) {a : Addr} (ha : ∀ i < 20, a ≠ digestAddr s i) :
    (microResult .writeDigest s).mem.read a = s.mem.read a := by
  refine read_digestWrites_outside s s.mem fun j hj => ?_
  have haddr := digestAddr_eq s (i := 19 - j) (by omega)
  rw [Nat.sub_sub_self (Nat.le_of_lt_succ hj)] at haddr
  exact haddr ▸ ha (19 - j) (by omega)

end Sys2Proof.Machine
end

