-- ==== Sys2Proof/Proofs/MicroOperationStatements.lean ====
section
/-! PROOFS. The statements about single micro operations, about the byte orders of their sequences, and about the order of
the pipeline's states in an operation. -/

namespace Sys2Proof.Machine

/-- Settles O20. -/
theorem idleMicroStepChangesNothing : Obligations.IdleMicroStepChangesNothing := exec_uIdle

/-- Settles O21. -/
theorem compute1OnlyAdvances : Obligations.Compute1OnlyAdvances := exec_uCompute1

/-- Settles O22: the byte fields of an assembled block, with the block's addresses taken as numbers. -/
theorem readBlockAssemblesTheBlock : Obligations.ReadBlockAssemblesTheBlock := by
  intro s
  refine ⟨_, exec_uReadBlock s, fun i hi => ?_, readBlock_bytesRead s, rfl⟩
  rw [← blockBase_toNat, ← blockAddr_eq_ofNat _ hi]
  exact readBlock_byteField s hi

/-- Settles O23: the submitted bytes by their bits, the fields of a packed digest, and the comparison that selects the next
pipeline state. -/
theorem compute2AbsorbsTheBlock : Obligations.Compute2AbsorbsTheBlock := by
  intro s
  have hmessage := congrArg (s.hashMsg ++ ·) (blockMessage_eq_bits s.blockBuffer)
  exact ⟨_, exec_uCompute2 s, hmessage, compute2_byteField s, compute2_state s, rfl⟩

/-- Settles O24: the 20 written addresses differ, so each holds its own byte, and no other address is written. -/
theorem writeDigestStoresTwentyBytes : Obligations.WriteDigestStoresTwentyBytes := by
  intro s
  exact ⟨_, exec_uWriteDigest s, fun i hi => ⟨digestAddr_eq_ofNat s hi, writeDigest_read_inside s hi⟩,
    fun a ha => writeDigest_read_outside s ha, rfl, rfl⟩

/-- Settles O28: the triple is that of one block of an operation, which submits the block in memory order. -/
theorem blockIsHashedInMemoryOrder : Obligations.BlockIsHashedInMemoryOrder := fun s =>
  ⟨_, _, _, exec_uReadBlock s, exec_uCompute1 _, exec_uCompute2 _, blockResult_hashMsg s⟩

/-- Settles O29: byte `j` of the digest's region is byte field `19 - j` of digest_buffer, which holds that byte of the
digest. -/
theorem digestLandsReversed : Obligations.DigestLandsReversed := fun s =>
  ⟨_, _, exec_uCompute2 s, exec_uWriteDigest _, fun j =>
    (read_digestWrites_inside (microResult .compute2 s) s.mem j).trans (compute2_byteField s j.rev)⟩

/-- Settles O46: the counter is a multiple of 64 and below 65536, so the next multiple is at most 65536. -/
theorem counterNeverWraps : Obligations.CounterNeverWraps := by
  intro s t hinv hat h
  obtain rfl := Host.Outcome.next.inj ((exec_uReadBlock s).symm.trans h)
  have hlt := hinv.bytesRead_lt hat
  have hcounter := readBlock_bytesRead_of_lt hlt
  have hblocks := hinv.wholeBlocks
  exact ⟨hcounter, by omega⟩

/-- Settles O47: after `k` blocks the operation is at ReadBlock, and the two micro steps that follow go through Compute1 to
Compute2. -/
theorem operationVisitsTheStatesInOrder : Obligations.OperationVisitsTheStatesInOrder := by
  intro s hat hzero hnone
  refine ⟨fun k hk => ?_, ?_⟩
  · obtain ⟨t, hrun, habsorbed⟩ := run_blocks hat hzero hnone hk.le
    have hreading : t.at .readBlock := by simpa only [if_pos hk] using habsorbed.position
    have hnone' : t.pending = [] := habsorbed.pending.trans hnone
    have hread := step_at hreading hnone'
    have hwait : step (microResult .readBlock t) = _ := step_at (p := .compute1) rfl hnone'
    have hcounter : (microResult .readBlock t).bytesRead.toNat = 64 * (k + 1) := by
      have := blockCount_le s.len
      have := habsorbed.counter
      rw [readBlock_bytesRead_of_lt (by omega)]
      omega
    refine ⟨t, microResult .readBlock t, microResult .compute1 (microResult .readBlock t), hrun, hreading,
      habsorbed.counter, ?_, rfl, hcounter, ?_, rfl, hcounter⟩
    · rw [run_add hrun, run_one hread]
    · rw [run_add hrun, run_succ hread, run_one hwait]
  · obtain ⟨w, hrun, hwriting, -, habsorbed⟩ := run_to_writeDigest hat hzero hnone
    exact ⟨w, hrun, hwriting, habsorbed.counter⟩

end Sys2Proof.Machine
end

