-- ==== Sys2Proof/Proofs/Invariant.lean ====
section
/-! SUPPORT. The invariant of the reachable states by parts, each of which every step keeps: the marks' steps, the value
returned, the memory's form, and what R32, R146, R148 and R150 say of a pipeline position (10_state.md section 4). -/

namespace Sys2Proof.Machine

/-! ### The steps that mark, and the reset -/

/-- When a reset comes next the step is the reset of the device (R200). -/
theorem step_of_reset {s : State} (h : nextInput s = .reset) : step s = .next (resetDevice (consumeInput s)) := by
  rw [step, h]

/-- When a transaction with the reserved tag comes next the step is refused (R89, R186). -/
theorem step_of_reserved {s : State} {a : Addr} {d : Data} (h : nextInput s = .host tagReserved a d) :
    step s = .next (refuseStep .reservedCommandTag (consumeInput s)) := by
  rw [step, h]
  rfl

theorem ofCode_of_illegal {s : State} (h : s.legal = false) : PipelineState.ofCode s.state = none := by
  simpa [State.legal] using h

/-- When a micro step comes next at an invalid code the step faults (R92, R187). -/
theorem step_of_illegal {s : State} (h : nextInput s = .tick) (hillegal : s.legal = false) :
    step s = .next (faultStep .invalidPipelineState (consumeInput s)) := by
  rw [step, h]
  exact exec_decodeMicro_invalid (ofCode_of_illegal hillegal) _

/-- The refusal mark is kept, or it is the first reason, where a transaction with the reserved tag came next. -/
theorem step_refusalMark {s t : State} (h : step s = .next t) :
    t.refusalMark = s.refusalMark ∨
    t.refusalMark = s.refusalMark.or (some .reservedCommandTag) ∧ ∃ a d, nextInput s = .host tagReserved a d := by
  refine (step_marks h).2.2.imp_right fun ⟨a, d, e⟩ => ⟨?_, a, d, e⟩
  obtain rfl := Host.Outcome.next.inj ((step_of_reserved e).symm.trans h)
  rfl

/-- The fault mark is kept, or it is the first reason, where a micro step came next at an invalid code. -/
theorem step_faultMark {s t : State} (h : step s = .next t) :
    t.faultMark = s.faultMark ∨
    t.faultMark = s.faultMark.or (some .invalidPipelineState) ∧ nextInput s = .tick ∧ s.legal = false := by
  refine (step_marks h).2.1.imp_right fun ⟨e, hillegal⟩ => ⟨?_, e, hillegal⟩
  obtain rfl := Host.Outcome.next.inj ((step_of_illegal e hillegal).symm.trans h)
  rfl

/-- Where a mark is kept or takes a reason if it has none, one that is set stays. -/
theorem mark_stays {ρ : Type} {m m' : Option ρ} {r : ρ} {P : Prop} (h : m' = m ∨ m' = m.or (some r) ∧ P) {x : ρ}
    (hx : m = some x) : m' = some x := by
  subst hx
  rcases h with hkept | ⟨hkept, -⟩ <;> exact hkept

/-- And one that changes was not set, so it takes the reason. -/
theorem mark_changes {ρ : Type} {m m' : Option ρ} {r : ρ} {P : Prop} (h : m' = m ∨ m' = m.or (some r) ∧ P)
    (hne : m' ≠ m) : m' = some r ∧ P := by
  rcases h with hkept | ⟨hset, hP⟩
  · exact absurd hkept hne
  · cases m with
    | none => exact ⟨hset, hP⟩
    | some x => exact absurd hset hne

/-! ### The value returned and the memory's form -/

/-- A Write returns 0, whatever it does (R109). -/
theorem decodeWrite_out {a : Addr} {d : Data} {s t : State} (h : exec (decodeWrite a d) s = .next t) : t.out = 0 := by
  rcases exec_decodeWrite a d s with hx | ⟨-, ⟨-, -, hx⟩ | ⟨-, hx⟩ | ⟨-, hx⟩ | ⟨-, hx⟩⟩
  all_goals
    obtain rfl := Host.Outcome.next.inj (hx.symm.trans h)
    rfl

/-- A value that a host transaction returns is a stored register's, `state`'s or 0, so it fits 16 bits (R86). -/
theorem transaction_keeps_outFits {c : BitVec 2} {a : Addr} {d : Data} {s t : State} (hs : s.out < 65536)
    (h : exec (decodeTransaction c a d) s = .next t) : t.out < 65536 := by
  rcases transaction_split c a d with ⟨-, e⟩ | ⟨rfl, -⟩ | ⟨-, e⟩ | ⟨-, e⟩
  · rw [e] at h
    obtain rfl := Host.Outcome.next.inj h
    exact Nat.zero_lt_succ _
  · rw [everyReadAddressReturnsItsValue a d s] at h
    obtain rfl := Host.Outcome.next.inj h
    dsimp only
    split_ifs
    · exact s.state.isLt.trans (by decide)
    · exact s.rdAddr.isLt
    · exact s.wrAddr.isLt
    · exact s.len.isLt
    · exact Nat.zero_lt_succ _
  · rw [e] at h
    rw [decodeWrite_out h]
    exact Nat.zero_lt_succ _
  · rw [e] at h
    obtain rfl := Host.Outcome.next.inj h
    exact hs

theorem microResult_out (p : PipelineState) (s : State) : (microResult p s).out = s.out := by
  cases p <;> rfl

/-- Only a host transaction returns a value. -/
theorem step_keeps_outFits {s t : State} (hs : s.out < 65536) (h : step s = .next t) : t.out < 65536 := by
  rcases step_cases h with
    ⟨c, a, d, -, hx⟩ | ⟨p, -, -, rfl⟩ | ⟨-, -, rfl⟩ | ⟨a, -, rfl⟩ | ⟨a, v, -, rfl⟩ | ⟨-, rfl⟩
  · exact transaction_keeps_outFits (s := consumeInput s) hs hx
  · rwa [microResult_out]
  all_goals exact hs

theorem transaction_keepsMem {c : BitVec 2} {a : Addr} {d : Data} {s t : State}
    (h : exec (decodeTransaction c a d) s = .next t) : t.mem = s.mem := by
  rcases transaction_cases h with
    ⟨v, -, rfl⟩ | ⟨-, rfl⟩ | ⟨-, -, ⟨-, -, rfl⟩ | ⟨-, rfl⟩ | ⟨-, rfl⟩ | ⟨-, rfl⟩⟩ <;> rfl

theorem microResult_memWf {s : State} (p : PipelineState) (hs : s.mem.wf = true) :
    (microResult p s).mem.wf = true := by
  cases p
  case writeDigest => exact Memory.wf_writeAll _ _ hs
  all_goals exact hs

/-- Every access of the MemoryBus keeps its form canonical. -/
theorem step_keeps_memWf {s t : State} (hs : s.mem.wf = true) (h : step s = .next t) : t.mem.wf = true := by
  rcases step_cases h with
    ⟨c, a, d, -, hx⟩ | ⟨p, -, -, rfl⟩ | ⟨-, -, rfl⟩ | ⟨a, -, rfl⟩ | ⟨a, v, -, rfl⟩ | ⟨-, rfl⟩
  · rw [transaction_keepsMem hx]
    exact hs
  · exact microResult_memWf p hs
  · exact hs
  · exact hs
  · exact Memory.wf_write _ _ _ hs
  · exact hs

/-! ### The pipeline's position -/

/-- A state is at one pipeline state only. -/
theorem at_unique {s : State} {p q : PipelineState} (hp : s.at p) (hq : s.at q) : p = q :=
  code_injective (hp.symm.trans hq)

/-- What the invariant says of the counter and of digest_buffer at pipeline state `p` (R146, R148, R150). -/
def State.PositionInv (s : State) : PipelineState → Prop
  | .idle => True
  | .readBlock => s.bytesRead = 0 ∨ s.bytesRead.toNat < s.len.toNat
  | .compute1 | .compute2 =>
    64 ≤ s.bytesRead.toNat ∧ (s.bytesRead.toNat = 64 ∨ s.bytesRead.toNat - 64 < s.len.toNat)
  | .writeDigest =>
    s.bytesRead.toNat = 64 * blockCount s.len.toNat ∧ s.digestBuffer = packDigest (Config.hash s.hashMsg)

/-- The part of the invariant about the pipeline's registers, for a state at `p`. -/
structure State.StandsAt (s : State) (p : PipelineState) : Prop where
  position : s.at p
  wholeBlocks : s.bytesRead.toNat % 64 = 0
  bounded : s.bytesRead.toNat ≤ 65536
  hashBlocks : s.hashMsg.length % 64 = 0
  registers : s.PositionInv p

theorem State.Inv.standsAt {s : State} {p : PipelineState} (h : s.Inv) (hat : s.at p) : s.StandsAt p := by
  refine ⟨hat, h.wholeBlocks, h.bounded, h.hashBlocks, ?_⟩
  cases p with
  | idle => trivial
  | readBlock => exact h.reading hat
  | compute1 => exact h.computing (.inl hat)
  | compute2 => exact h.computing (.inr hat)
  | writeDigest => exact ⟨h.writing hat, h.digest hat⟩

/-- The invariant from its parts. -/
theorem State.StandsAt.inv {s : State} {p : PipelineState} (h : s.StandsAt p) (hfault : s.faultMark = none)
    (hmem : s.mem.wf = true) (hout : s.out < 65536) : s.Inv where
  legal := (legal_iff s).mpr ⟨p, h.position⟩
  noFault := hfault
  memWf := hmem
  outFits := hout
  wholeBlocks := h.wholeBlocks
  bounded := h.bounded
  hashBlocks := h.hashBlocks
  reading hat := by
    obtain rfl := at_unique h.position hat
    exact h.registers
  computing := by
    rintro (hat | hat) <;> obtain rfl := at_unique h.position hat <;> exact h.registers
  writing hat := by
    obtain rfl := at_unique h.position hat
    exact h.registers.1
  digest hat := by
    obtain rfl := at_unique h.position hat
    exact h.registers.2

/-- The list of the coming steps is no part of the invariant. -/
theorem State.Inv.consumeInput {s : State} (h : s.Inv) : (consumeInput s).Inv :=
  ⟨h.legal, h.noFault, h.memWf, h.outFits, h.wholeBlocks, h.bounded, h.reading, h.computing, h.writing, h.digest,
    h.hashBlocks⟩

/-- A step that leaves the pipeline's registers, and `len` too while busy, leaves the state where it stands. -/
theorem State.StandsAt.of_keepsPipeline {s t : State} {p : PipelineState} (h : s.StandsAt p)
    (hk : s.KeepsPipeline t) (hlen : p = .idle ∨ t.len = s.len) : t.StandsAt p := by
  refine ⟨hk.state.trans h.position, by rw [hk.bytesRead]; exact h.wholeBlocks,
    by rw [hk.bytesRead]; exact h.bounded, by rw [hk.hashMsg]; exact h.hashBlocks, ?_⟩
  rcases hlen with rfl | hlen
  · trivial
  · have hregisters := h.registers
    unfold State.PositionInv at hregisters ⊢
    rwa [hk.bytesRead, hk.digestBuffer, hk.hashMsg, hlen]

theorem resetDevice_standsAt (s : State) : (resetDevice s).StandsAt .idle :=
  ⟨rfl, rfl, Nat.zero_le _, rfl, trivial⟩

theorem armPipeline_standsAt {s : State} (h : s.hashMsg.length % 64 = 0) : (armPipeline s).StandsAt .readBlock := by
  refine ⟨rfl, rfl, Nat.zero_le _, ?_, .inl rfl⟩
  rw [armPipeline_hashMsg, hashMsgAtStart]
  split
  · rfl
  · exact h

/-- A counter one block past a position of the message is its block count, once the message is read (R150). -/
theorem eq_blockCount {b len : Nat} (hwhole : b % 64 = 0) (hfirst : 64 ≤ b) (hlast : b = 64 ∨ b - 64 < len)
    (hdone : ¬ b < len) : b = 64 * blockCount len := by
  unfold blockCount
  omega

/-- After the triple of a block the operation goes on, or it has read its blocks and holds their digest (R148, R150). -/
theorem compute2_standsAt {s : State} (h : s.StandsAt .compute2) :
    (microResult .compute2 s).StandsAt (if moreBlocks s then .readBlock else .writeDigest) := by
  obtain ⟨hfirst, hlast⟩ := h.registers
  refine ⟨rfl, h.wholeBlocks, h.bounded, ?_, ?_⟩
  · change (s.hashMsg ++ blockMessage s.blockBuffer).length % 64 = 0
    rw [List.length_append, blockMessage_length, Nat.add_mod_right]
    exact h.hashBlocks
  · split
    · next hmore => exact .inr ((moreBlocks_iff s).mp hmore)
    · next hdone => exact ⟨eq_blockCount h.wholeBlocks hfirst hlast (mt (moreBlocks_iff s).mpr hdone), rfl⟩

/-- The counter after a ReadBlock is one block past where the block was due (R146). -/
theorem readBlock_standsAt {s : State} (h : s.Inv) (hat : s.at .readBlock) :
    (microResult .readBlock s).StandsAt .compute1 := by
  have hlt := h.bytesRead_lt hat
  have hcounter := readBlock_bytesRead_of_lt hlt
  have hwhole := h.wholeBlocks
  refine ⟨rfl, by omega, by omega, h.hashBlocks, by omega, ?_⟩
  rcases h.reading hat with hzero | hmore
  · rw [hzero] at hcounter
    exact .inl hcounter
  · rw [hcounter, Nat.add_sub_cancel]
    exact .inr hmore

/-- A micro operation keeps what the invariant says of the pipeline, at the state that it enters (R145 to R149). -/
theorem microResult_standsAt {s : State} {p : PipelineState} (h : s.Inv) (hat : s.at p) :
    ∃ q, (microResult p s).StandsAt q := by
  have hs := h.standsAt hat
  cases p with
  | idle => exact ⟨.idle, hs⟩
  | readBlock => exact ⟨.compute1, readBlock_standsAt h hat⟩
  | compute1 => exact ⟨.compute2, rfl, hs.wholeBlocks, hs.bounded, hs.hashBlocks, hs.registers⟩
  | compute2 => exact ⟨_, compute2_standsAt hs⟩
  | writeDigest => exact ⟨.idle, rfl, hs.wholeBlocks, hs.bounded, hs.hashBlocks, trivial⟩

/-- Every step keeps what the invariant says of the pipeline: the registers that it is about change with a micro step, a
start trigger or a reset, and `len` only while Idle or by a reset. -/
theorem step_standsAt {s t : State} (h : s.Inv) (hstep : step s = .next t) : ∃ q, t.StandsAt q := by
  rcases step_keepsPipeline_or_moves hstep with hk | ⟨p, -, hat, rfl⟩ | ⟨-, -, rfl⟩ | ⟨-, rfl⟩
  · obtain ⟨p, hat⟩ := (legal_iff s).mp h.legal
    by_cases hreset : nextInput s = .reset
    · obtain rfl := Host.Outcome.next.inj ((step_of_reset hreset).symm.trans hstep)
      exact ⟨.idle, resetDevice_standsAt _⟩
    · refine ⟨p, (h.standsAt hat).of_keepsPipeline hk ?_⟩
      by_cases hp : p = .idle
      · exact .inl hp
      · have hbusy : s.isIdle = false := by rw [isIdle_of_at hat, decide_eq_false hp]
        exact .inr (addressesAreFrozenWhileBusy s t hbusy hreset hstep).2.2
  · exact microResult_standsAt h.consumeInput hat
  · obtain ⟨hat, hwhole, hbounded, hhash, hregisters⟩ := armPipeline_standsAt (s := consumeInput s) h.hashBlocks
    exact ⟨.readBlock, hat, hwhole, hbounded, hhash, hregisters⟩
  · exact ⟨.idle, resetDevice_standsAt _⟩

/-! ### The way back to Idle -/

/-- How many micro steps a block at `p` needs at most until it is Idle: three for each block that the longest message still
has, and one for WriteDigest (R153). -/
def microStepsLeft (p : PipelineState) (s : State) : Nat :=
  match p with
  | .idle => 0
  | .readBlock => 3 * (1024 - s.bytesRead.toNat / 64) + 1
  | .compute1 => 3 * (1024 - s.bytesRead.toNat / 64) + 3
  | .compute2 => 3 * (1024 - s.bytesRead.toNat / 64) + 2
  | .writeDigest => 1

/-- A busy block has at most the `3 * 1024 + 1` micro steps of the longest message before it. -/
theorem microStepsLeft_le {s : State} {p : PipelineState} (h : s.StandsAt p) : microStepsLeft p s ≤ 3073 := by
  have hregisters := h.registers
  cases p <;> simp only [microStepsLeft, State.PositionInv] at hregisters ⊢ <;> omega

/-- A micro step of a busy block brings it nearer to Idle. -/
theorem microStepsLeft_decreases {s : State} {p : PipelineState} (h : s.Inv) (hat : s.at p) (hbusy : p ≠ .idle) :
    ∃ q, (microResult p s).at q ∧ microStepsLeft q (microResult p s) < microStepsLeft p s := by
  cases p with
  | idle => exact absurd rfl hbusy
  | readBlock =>
    have hlt := h.bytesRead_lt hat
    refine ⟨.compute1, rfl, ?_⟩
    rw [microStepsLeft, microStepsLeft, readBlock_bytesRead_of_lt hlt]
    omega
  | compute1 => exact ⟨.compute2, rfl, Nat.lt_succ_self _⟩
  | compute2 =>
    refine ⟨if moreBlocks s then .readBlock else .writeDigest, rfl, ?_⟩
    split
    · exact Nat.lt_succ_self _
    · rw [microStepsLeft, microStepsLeft]
      omega
  | writeDigest => exact ⟨.idle, rfl, Nat.zero_lt_one⟩

end Sys2Proof.Machine
end

