-- ==== Sys2Proof/Proofs/InvariantStatements.lean ====
section
/-! PROOFS. The statements about the invariant, the marks, and the runs that meet them. -/

namespace Sys2Proof.Machine

/-- Settles O4, part by part: the pipeline's registers, the fault mark, the memory's form, the value returned. -/
theorem stepKeepsTheInvariant : Obligations.StepKeepsTheInvariant := by
  intro s t h hstep
  obtain ⟨q, hstands⟩ := step_standsAt h hstep
  have hunfaulted := step_keeps_unfaulted s t ⟨h.legal, h.noFault⟩ hstep
  exact hstands.inv hunfaulted.noFault (step_keeps_memWf h.memWf hstep) (step_keeps_outFits h.outFits hstep)

/-- Settles O3: the reset state is what the reset of itself leaves. -/
theorem invariantAtReset : Obligations.InvariantAtReset :=
  (resetDevice_standsAt State.reset).inv rfl Memory.wf_nil (Nat.zero_lt_succ _)

/-- Settles O45: the next state has the invariant, and its refusal mark is kept or is the reserved tag's. -/
theorem noFaultAndOneRefusal : Obligations.NoFaultAndOneRefusal := by
  intro s h
  obtain ⟨t, ht⟩ := step_total s
  refine ⟨t, ht, (stepKeepsTheInvariant s t h ht).noFault, ?_⟩
  exact or_iff_not_imp_left.mpr (mark_changes (step_refusalMark ht))

/-- With the invariant and nothing pending the block is Idle after at most the micro steps that are left. -/
theorem run_to_idle {s : State} {p : PipelineState} {n : Nat} (h : s.Inv) (hnone : s.pending = []) (hat : s.at p)
    (hn : microStepsLeft p s ≤ n) :
    ∃ (k : Nat) (t : State), k ≤ n ∧ Host.Core.run core k s = .next t ∧ t.at .idle := by
  induction n generalizing s p with
  | zero =>
    by_cases hp : p = .idle
    · exact ⟨0, s, Nat.le_refl 0, rfl, hp ▸ hat⟩
    · obtain ⟨q, -, hlt⟩ := microStepsLeft_decreases h hat hp
      omega
  | succ n ih =>
    by_cases hp : p = .idle
    · exact ⟨0, s, Nat.zero_le _, rfl, hp ▸ hat⟩
    · have hstep := step_at hat hnone
      obtain ⟨q, hat', hlt⟩ := microStepsLeft_decreases h hat hp
      obtain ⟨k, t, hk, hrun, hidle⟩ := ih (stepKeepsTheInvariant s _ h hstep)
        (run_nothing_pending hnone (run_one hstep)) hat' (by omega)
      exact ⟨k + 1, t, Nat.succ_le_succ hk, (run_succ hstep k).trans hrun, hidle⟩

/-- Settles O49: each micro step lessens the number of those left, which is at most that of the longest message. -/
theorem busyReturnsToIdle : Obligations.BusyReturnsToIdle := by
  intro s h hnone
  obtain ⟨p, hat⟩ := (legal_iff s).mp h.legal
  exact run_to_idle h hnone hat (microStepsLeft_le (h.standsAt hat))

/-- Settles O53: a step keeps each mark, or it is that mark's own step, which sets it where it is not set. -/
theorem marksAreKeptAndSetOnlyByTheirSteps : Obligations.MarksAreKeptAndSetOnlyByTheirSteps := fun _ _ h =>
  ⟨fun _ => mark_stays (step_refusalMark h), fun _ => mark_stays (step_faultMark h),
    mark_changes (step_refusalMark h), mark_changes (step_faultMark h)⟩

/-- A state with a mark, said by the reason that is set. -/
theorem not_endsWell_iff (s : State) :
    ¬ s.endsWell ↔ (∃ r, s.refusalMark = some r) ∨ ∃ r, s.faultMark = some r := by
  rw [State.endsWell, not_and_or, ← ne_eq, ← ne_eq, Option.ne_none_iff_exists', Option.ne_none_iff_exists']

/-- A marked state stays marked (R186, R187). -/
theorem step_keeps_not_endsWell (s t : State) (hs : ¬ s.endsWell) (h : step s = .next t) : ¬ t.endsWell := by
  obtain ⟨hrefusal, hfault, -⟩ := marksAreKeptAndSetOnlyByTheirSteps s t h
  rw [not_endsWell_iff] at hs ⊢
  exact hs.imp (fun ⟨r, hr⟩ => ⟨r, hrefusal r hr⟩) fun ⟨r, hr⟩ => ⟨r, hfault r hr⟩

/-- A refused step and a faulted step leave a marked state. -/
theorem step_marks_state {s t : State} (h : step s = .next t)
    (hmarks : (∃ a d, nextInput s = .host tagReserved a d) ∨ nextInput s = .tick ∧ s.legal = false) :
    ¬ t.endsWell := by
  rcases hmarks with ⟨a, d, e⟩ | ⟨e, hillegal⟩
  · obtain rfl := Host.Outcome.next.inj ((step_of_reserved e).symm.trans h)
    rintro ⟨hrefusal, -⟩
    simp at hrefusal
  · obtain rfl := Host.Outcome.next.inj ((step_of_illegal e hillegal).symm.trans h)
    rintro ⟨-, hfault⟩
    simp at hfault

/-- Settles O54: the marked step leaves a mark, and every later step keeps it. -/
theorem runsWithAMarkedStepDoNotEndWell : Obligations.RunsWithAMarkedStepDoNotEndWell := by
  intro k n s t hrun hmarks
  obtain ⟨u, hu⟩ := step_total t
  obtain ⟨v, hv, hmarked⟩ := run_keeps step_keeps_not_endsWell n (step_marks_state hu hmarks)
  refine ⟨v, ?_, hmarked⟩
  rw [Nat.add_assoc, run_add hrun, Nat.add_comm 1 n, run_succ hu, hv]

/-- Settles O52, by the kinds of step: host transactions, micro steps at any code, and the three whose next state is
given. -/
theorem everyStepAnswersANextState : Obligations.EveryStepAnswersANextState := step_total

end Sys2Proof.Machine
end

