-- ==== Sys2Proof/Proofs/Encoding.lean ====
section
/-! SUPPORT. The encoder and the decoder against each other, row by row, and the bytes of a value (30_encoding.md sections 1,
2 and 5). -/

namespace Sys2Proof

/-! ### Transactions -/

/-- A packed transaction decodes as its three fields, the data at the port's width (R83). -/
theorem decode_pack (dw : Nat) (c : BitVec 2) (a : Addr) (d : Data) :
    decode dw (.ht (packTransaction dw c a d)) = decodeTransaction c a (d % 2 ^ dw) := by
  rw [decode, wordCmd_pack, wordAddr_pack, wordData_pack]

theorem decode_pack_of_fits {dw : Nat} {d : Data} (h : dataFits dw d = true) (c : BitVec 2) (a : Addr) :
    decode dw (.ht (packTransaction dw c a d)) = decodeTransaction c a d := by
  rw [decode_pack, Nat.mod_eq_of_lt (of_decide_eq_true h)]

/-- The trigger's data fits every port (R81). -/
theorem dataFits_one {dw : Nat} (h : 16 ≤ dw) : dataFits dw 1 = true :=
  decide_eq_true (Nat.one_lt_two_pow (by omega))

theorem decodeRead_of_unmapped {a : Addr} (h : unmappedAddr a = true) (d : Data) :
    decodeRead a d = .rdUnmapped a d := by
  rw [decodeRead, (decodeReg_none a).mpr h]

theorem decodeWrite_of_unmapped {a : Addr} (h : unmappedAddr a = true) (d : Data) :
    decodeWrite a d = .wrUnmapped a d := by
  rw [decodeWrite, (decodeReg_none a).mpr h]

/-- The instruction is well-formed and the word is its encoding: what the decoder is to give. -/
def Instr.EncodesTo {dw : Nat} (i : Instr) (x : InputWord dw) : Prop := i.wfAt dw = true ∧ encode dw i = x

theorem decodeRead_encodesTo {dw : Nat} {d : Data} (h : dataFits dw d = true) (a : Addr) :
    (decodeRead a d).EncodesTo (.ht (packTransaction dw tagRead a d)) := by
  cases hr : decodeReg a with
  | none =>
    have hunmapped := (decodeReg_none a).mp hr
    rw [decodeRead_of_unmapped hunmapped]
    exact ⟨Bool.and_eq_true_iff.mpr ⟨hunmapped, h⟩, rfl⟩
  | some r =>
    obtain rfl := addr_of_decodeReg hr
    cases r <;> exact ⟨h, rfl⟩

/-- A Write of `start` is the one register access that has two rows (R85). -/
theorem decodeWrite_encodesTo {dw : Nat} {d : Data} (h : dataFits dw d = true) (a : Addr) :
    (decodeWrite a d).EncodesTo (.ht (packTransaction dw tagWrite a d)) := by
  cases hr : decodeReg a with
  | none =>
    have hunmapped := (decodeReg_none a).mp hr
    rw [decodeWrite_of_unmapped hunmapped]
    exact ⟨Bool.and_eq_true_iff.mpr ⟨hunmapped, h⟩, rfl⟩
  | some r =>
    obtain rfl := addr_of_decodeReg hr
    cases r with
    | start =>
      change (if d = 1 then Instr.wrStartGo else .wrStartOther d).EncodesTo _
      split
      · next hgo => exact ⟨rfl, by rw [hgo]; rfl⟩
      · next hother => exact ⟨Bool.and_eq_true_iff.mpr ⟨decide_eq_true hother, h⟩, rfl⟩
    | state | rdAddr | wrAddr | len => exact ⟨h, rfl⟩

theorem decodeTransaction_encodesTo {dw : Nat} {d : Data} (h : dataFits dw d = true) (c : BitVec 2) (a : Addr) :
    (decodeTransaction c a d).EncodesTo (.ht (packTransaction dw c a d)) := by
  rcases Machine.transaction_split c a d with ⟨rfl, e⟩ | ⟨rfl, e⟩ | ⟨rfl, e⟩ | ⟨rfl, e⟩ <;> rw [e]
  · exact ⟨h, rfl⟩
  · exact decodeRead_encodesTo h a
  · exact decodeWrite_encodesTo h a
  · exact ⟨h, rfl⟩

theorem wordData_fits (dw : Nat) (w : BitVec (2 + 16 + dw)) : dataFits dw (wordData dw w) = true :=
  decide_eq_true (w.extractLsb' 0 dw).isLt

/-! ### Selectors -/

theorem decodeMicro_of_invalid {c : BitVec 8} (h : 5 ≤ c.toNat) : decodeMicro c = .uInvalid c :=
  Machine.decodeMicro_eq_uInvalid_iff.mpr ((ofCode_none c).mpr h)

theorem decodeMicro_encodesTo (dw : Nat) (c : BitVec 8) : (decodeMicro c).EncodesTo (dw := dw) (.us c) := by
  cases hp : PipelineState.ofCode c with
  | none =>
    have hcode := (ofCode_none c).mp hp
    rw [decodeMicro_of_invalid hcode]
    exact ⟨decide_eq_true hcode, rfl⟩
  | some p =>
    obtain rfl := code_of_ofCode hp
    cases p <;> exact ⟨rfl, rfl⟩

/-! ### Bytes -/

/-- `n` bytes hold a value modulo `256 ^ n`. -/
theorem bytesValue_valueBytes (n v : Nat) : bytesValue (valueBytes n v) = v % 256 ^ n := by
  induction n generalizing v with
  | zero => rw [Nat.pow_zero, Nat.mod_one]; rfl
  | succ n ih =>
    rw [valueBytes, bytesValue, ih, BitVec.toNat_ofNat, pow_succ' 256]
    exact Nat.mod_mul.symm

/-- Five bytes of a word of 34 bits decode to the word's instruction (R83). -/
theorem decodeBytes_valueBytes {w : Nat} (h : w < 2 ^ 34) :
    decodeBytes (valueBytes htBytes w) = .ok (decode 16 (.ht (BitVec.ofNat 34 w))) := by
  have hvalue : bytesValue (valueBytes htBytes w) = w :=
    (bytesValue_valueBytes htBytes w).trans (Nat.mod_eq_of_lt (h.trans (by decide)))
  change (if 2 ^ 34 ≤ bytesValue (valueBytes htBytes w) then Except.error DecodeError.strayBitsAboveWord
    else .ok (decode 16 (.ht (BitVec.ofNat 34 (bytesValue (valueBytes htBytes w)))))) = _
  rw [hvalue, if_neg (Nat.not_le_of_lt h)]

end Sys2Proof
end

