-- ==== Sys2Proof/Proofs/EncodingStatements.lean ====
section
/-! PROOFS. The statements about the round trips of the encoding, and about a word placed for the fetch. -/

namespace Sys2Proof.Machine

/-- Settles O40, by the rows: a transaction's fields come back from the packed word, and each row's address, data or code
selects that row again. -/
theorem decodeOfEncode : Obligations.DecodeOfEncode := by
  intro dw i hdw h
  cases i with
  | nop | rdStart | rdState | rdRdAddr | rdWrAddr | rdLen | wrState | wrRdAddr | wrWrAddr | wrLen | cmdReserved =>
    exact decode_pack_of_fits h _ _
  | rdUnmapped a d =>
    obtain ⟨hunmapped, hfits⟩ := Bool.and_eq_true_iff.mp h
    exact (decode_pack_of_fits hfits _ _).trans (decodeRead_of_unmapped hunmapped d)
  | wrUnmapped a d =>
    obtain ⟨hunmapped, hfits⟩ := Bool.and_eq_true_iff.mp h
    exact (decode_pack_of_fits hfits _ _).trans (decodeWrite_of_unmapped hunmapped d)
  | wrStartGo => exact decode_pack_of_fits (dataFits_one hdw) _ _
  | wrStartOther d =>
    obtain ⟨hother, hfits⟩ := Bool.and_eq_true_iff.mp h
    exact (decode_pack_of_fits hfits _ _).trans (if_neg (of_decide_eq_true hother))
  | uIdle | uReadBlock | uCompute1 | uCompute2 | uWriteDigest => rfl
  | uInvalid c => exact decodeMicro_of_invalid (of_decide_eq_true h)

/-- Settles O41: a packed word is its three fields, and what those decode to encodes to them again. -/
theorem encodeOfDecode : Obligations.EncodeOfDecode := by
  intro dw x _
  cases x with
  | ht w =>
    have h := decodeTransaction_encodesTo (wordData_fits dw w) (wordCmd dw w) (wordAddr dw w)
    rwa [pack_fields] at h
  | us c => exact decodeMicro_encodesTo dw c

/-- Settles O42: the bytes give the encoded word back, which decodes to the instruction. -/
theorem bytesDecodeBack : Obligations.BytesDecodeBack := by
  intro i h
  have hdecode := decodeOfEncode Config.dataWidth i (Nat.le_refl 16) h
  rw [encodeBytes]
  cases hx : encode Config.dataWidth i with
  | ht w =>
    have hword : BitVec.ofNat 34 w.toNat = w := BitVec.eq_of_toNat_eq (Nat.mod_eq_of_lt w.isLt)
    rw [hx] at hdecode
    rw [decodeBytes_valueBytes w.isLt, hword]
    exact congrArg Except.ok hdecode
  | us c =>
    rw [hx] at hdecode
    exact congrArg Except.ok hdecode

/-- Settles O34: the placed word is the list's head, or selects by `state`; its bytes are those of a word of the table. -/
theorem placedWordRunsNext : Obligations.PlacedWordRunsNext := by
  intro s w
  refine ⟨fun hw => ⟨step_of_host rfl, ?_⟩, fun _ => ⟨step_of_tick rfl, rfl⟩⟩
  rw [decodeTableWord, show (40 + 7) / 8 = htBytes from rfl, decodeBytes_valueBytes hw]

/-- Settles O44: eleven fixed words, computed. -/
theorem sampleWordsDecode : Obligations.SampleWordsDecode := by
  unfold Obligations.SampleWordsDecode
  decide

end Sys2Proof.Machine
end

