-- ==== Sys2Proof/Proofs/MemoryDependence.lean ====
section
/-! SUPPORT. What a memory's form, a block and a host transaction take from the MemoryBus (20_memory.md sections 1 and 6). -/

namespace Sys2Proof.Machine

/-! ### The canonical form -/

/-- The parts of the canonical form of a memory that lists something. -/
theorem Memory.wfFrom_cons {lo b : Nat} {v : Byte} {m : Memory} :
    Memory.wfFrom lo ((b, v) :: m) = true ↔
      lo ≤ b ∧ b < Config.memSize ∧ v ≠ Memory.unlisted b ∧ Memory.wfFrom (b + 1) m = true := by
  simp [Memory.wfFrom, and_assoc]

theorem Memory.get_head (b : Nat) (v : Byte) (m : Memory) : Memory.get ((b, v) :: m) b = v := if_pos rfl

theorem Memory.get_tail {a b : Nat} (h : a ≠ b) (v : Byte) (m : Memory) :
    Memory.get ((b, v) :: m) a = Memory.get m a := if_neg h

/-- A canonical memory lists nothing below where it begins. -/
theorem Memory.get_of_lt {lo a : Nat} {m : Memory} (hm : Memory.wfFrom lo m = true) (ha : a < lo) :
    Memory.get m a = Memory.unlisted a := by
  induction m generalizing lo with
  | nil => rfl
  | cons e m ih =>
    obtain ⟨b, v⟩ := e
    obtain ⟨hlo, -, -, htail⟩ := Memory.wfFrom_cons.mp hm
    rw [Memory.get_tail (by omega)]
    exact ih htail (by omega)

/-- What a canonical memory lists first, no canonical memory that begins later reads as. -/
theorem Memory.get_ne_of_begins_later {lo b : Nat} {v : Byte} {m n : Memory}
    (hm : Memory.wfFrom lo ((b, v) :: m) = true) (hn : Memory.wfFrom (b + 1) n = true) :
    Memory.get ((b, v) :: m) b ≠ Memory.get n b := by
  obtain ⟨-, -, hv, -⟩ := Memory.wfFrom_cons.mp hm
  rw [Memory.get_head, Memory.get_of_lt hn (Nat.lt_succ_self b)]
  exact hv

/-- A canonical memory that lists something later begins later. -/
theorem Memory.wfFrom_of_head_lt {lo b c : Nat} {w : Byte} {n : Memory}
    (hn : Memory.wfFrom lo ((c, w) :: n) = true) (hbc : b < c) : Memory.wfFrom (b + 1) ((c, w) :: n) = true := by
  obtain ⟨-, hrest⟩ := Memory.wfFrom_cons.mp hn
  exact Memory.wfFrom_cons.mpr ⟨hbc, hrest⟩

/-- Canonical memories that read alike list the same, entry by entry: of two first entries the lower one would read
differently in the other memory. -/
theorem Memory.eq_of_get_eq {lo : Nat} {m n : Memory} (hm : Memory.wfFrom lo m = true) (hn : Memory.wfFrom lo n = true)
    (h : ∀ a < Config.memSize, Memory.get m a = Memory.get n a) : m = n := by
  induction m generalizing lo n with
  | nil =>
    cases n with
    | nil => rfl
    | cons f n =>
      obtain ⟨c, w⟩ := f
      obtain ⟨-, hc, -⟩ := Memory.wfFrom_cons.mp hn
      exact absurd (h c hc).symm (Memory.get_ne_of_begins_later hn rfl)
  | cons e m ih =>
    obtain ⟨b, v⟩ := e
    obtain ⟨-, hb, -, hmtail⟩ := Memory.wfFrom_cons.mp hm
    cases n with
    | nil => exact absurd (h b hb) (Memory.get_ne_of_begins_later hm rfl)
    | cons f n =>
      obtain ⟨c, w⟩ := f
      obtain ⟨-, hc, -, hntail⟩ := Memory.wfFrom_cons.mp hn
      rcases Nat.lt_trichotomy b c with hlt | rfl | hlt
      · exact absurd (h b hb) (Memory.get_ne_of_begins_later hm (Memory.wfFrom_of_head_lt hn hlt))
      · have hvw := h b hb
        rw [Memory.get_head, Memory.get_head] at hvw
        rw [hvw, ih hmtail hntail fun a ha => ?_]
        by_cases hab : a = b
        · rw [hab, Memory.get_of_lt hmtail (Nat.lt_succ_self b), Memory.get_of_lt hntail (Nat.lt_succ_self b)]
        · rw [← Memory.get_tail hab v m, ← Memory.get_tail hab w n]
          exact h a ha
      · exact absurd (h c hc).symm (Memory.get_ne_of_begins_later hn (Memory.wfFrom_of_head_lt hm hlt))

/-! ### The block of a ReadBlock -/

theorem packBytes_congr {w n : Nat} {f g : Nat → Byte} (h : ∀ i < n, f i = g i) : packBytes w n f = packBytes w n g := by
  induction n with
  | zero => rfl
  | succ n ih => rw [packBytes, packBytes, ih fun i hi => h i (Nat.lt_succ_of_lt hi), h n (Nat.lt_succ_self n)]

/-- Byte field `i` of a block is its byte `63 - i` in address order (R59). -/
theorem blockAddr_eq_add (base : Addr) {i : Nat} (hi : i < 64) :
    blockAddr base i = base + BitVec.ofNat 16 (63 - i) := by
  have h := blockAddr_rev base (j := 63 - i) (by omega)
  rwa [Nat.sub_sub_self (Nat.le_of_lt_succ hi)] at h

/-- A block depends on its 64 bytes alone (R156). -/
theorem assembleBlock_congr {m n : Memory} {base : Addr}
    (h : ∀ j < 64, m.read (base + BitVec.ofNat 16 j) = n.read (base + BitVec.ofNat 16 j)) :
    assembleBlock m base = assembleBlock n base := by
  refine packBytes_congr fun i hi => ?_
  rw [blockAddr_eq_add base hi]
  exact h (63 - i) (by omega)

/-- Of the block's addresses, byte `j` is that of byte field `63 - j` and of no other. -/
theorem blockAddr_eq_iff (base : Addr) {i j : Nat} (hi : i < 64) (hj : j < 64) :
    blockAddr base i = base + BitVec.ofNat 16 j ↔ i = 63 - j := by
  rw [blockAddr_eq_add base hi, BitVec.add_right_inj, ← BitVec.toNat_inj, BitVec.toNat_ofNat, BitVec.toNat_ofNat]
  omega

/-! ### Host transactions -/

/-- A Write whose effect does not look at the MemoryBus does not either, done or dropped (R55, R109). -/
theorem gatedWrite_ignoresMem {f : State → State} {s t : State} {m : Memory}
    (hf : f { s with mem := m } = { f s with mem := m }) (h : gatedWrite f s = .next t) :
    gatedWrite f { s with mem := m } = .next { t with mem := m } := by
  rw [gatedWrite_eq_next] at h ⊢
  rw [h, hf, State.isIdle, State.isIdle]
  split <;> rfl

theorem decodeWrite_ignoresMem {a : Addr} {d : Data} {s t : State} (m : Memory)
    (h : exec (decodeWrite a d) s = .next t) :
    exec (decodeWrite a d) { s with mem := m } = .next { t with mem := m } := by
  cases hr : decodeReg a with
  | none =>
    rw [decodeWrite_of_unmapped ((decodeReg_none a).mp hr)] at h ⊢
    exact gatedWrite_ignoresMem (f := id) rfl h
  | some r =>
    obtain rfl := addr_of_decodeReg hr
    cases r with
    | start =>
      by_cases hd : d = 1
      · obtain rfl := hd
        exact gatedWrite_ignoresMem (f := armPipeline) rfl h
      · rw [show decodeWrite HostReg.start.addr d = .wrStartOther d from if_neg hd] at h ⊢
        exact gatedWrite_ignoresMem (f := id) rfl h
    | state => exact gatedWrite_ignoresMem (f := id) rfl h
    | rdAddr => exact gatedWrite_ignoresMem (f := fun s => { s with rdAddr := maskToRegister d }) rfl h
    | wrAddr => exact gatedWrite_ignoresMem (f := fun s => { s with wrAddr := maskToRegister d }) rfl h
    | len => exact gatedWrite_ignoresMem (f := fun s => { s with len := maskToRegister d }) rfl h

end Sys2Proof.Machine
end

