-- ==== Sys2Proof/Proofs/MemoryDependenceStatements.lean ====
section
/-! PROOFS. The statements about the memory's form, and about what an instruction takes from the MemoryBus. -/

namespace Sys2Proof.Machine

/-- Settles O39: every address below 65536 is one that can be read. -/
theorem canonicalMemoriesThatReadAlikeAreEqual : Obligations.CanonicalMemoriesThatReadAlikeAreEqual := by
  intro m n hm hn h
  refine Memory.eq_of_get_eq hm hn fun a ha => ?_
  have hread := h (BitVec.ofNat 16 a)
  rwa [Memory.read, Memory.read, BitVec.toNat_ofNat, Nat.mod_eq_of_lt ha] at hread

/-- Settles O27: the block is the same, and nothing else of the four results is of the MemoryBus. -/
theorem pipelineReadsOnlyItsBlock : Obligations.PipelineReadsOnlyItsBlock := by
  intro s t m
  refine ⟨fun hblock h => ?_, fun h => ?_, fun h => ?_, fun h => ?_⟩ <;> obtain rfl := Host.Outcome.next.inj h
  · have hsame := assembleBlock_congr hblock
    rw [exec_uReadBlock, microResult, ← hsame]
    rfl
  all_goals rfl

/-- Settles O30: the written address is that of one byte field, and a read after the write gives the byte there. -/
theorem readBlockSeesAnEarlierWrite : Obligations.ReadBlockSeesAnEarlierWrite := by
  intro s t u j v hj ht hu i hi
  obtain rfl := Host.Outcome.next.inj ((exec_uReadBlock _).symm.trans ht)
  obtain rfl := Host.Outcome.next.inj ((exec_uReadBlock _).symm.trans hu)
  have hbase : blockBase (environmentWrite (blockBase s + BitVec.ofNat 16 j) v s) = blockBase s := rfl
  have hfield := readBlock_byteField (environmentWrite (blockBase s + BitVec.ofNat 16 j) v s) hi
  rw [environmentWrite_mem, hbase, Memory.read_write, ← readBlock_byteField s hi] at hfield
  exact hfield.trans (if_congr (blockAddr_eq_iff _ hi hj) rfl rfl)

/-- Settles O19, by the tag: NoOp and the refusal give their next state, a Read returns the value of its address, and a
Write's effect is on the registers. -/
theorem hostTransactionsIgnoreMemory : Obligations.HostTransactionsIgnoreMemory := by
  intro c a d s t m h
  rcases transaction_split c a d with ⟨-, e⟩ | ⟨rfl, -⟩ | ⟨-, e⟩ | ⟨-, e⟩
  · rw [e] at h ⊢
    obtain rfl := Host.Outcome.next.inj h
    rfl
  · rw [everyReadAddressReturnsItsValue] at h ⊢
    obtain rfl := Host.Outcome.next.inj h
    rfl
  · rw [e] at h ⊢
    exact decodeWrite_ignoresMem m h
  · rw [e] at h ⊢
    obtain rfl := Host.Outcome.next.inj h
    rfl

end Sys2Proof.Machine
end

