-- ==== Sys2Proof/Proofs/DeviceStatements.lean ====
section
/-! PROOFS. The statements about reset, single host commands, and which instruction a step runs. -/

namespace Sys2Proof.Machine

/-- Settles O1: each field of the reset state, and a memory that lists nothing reads as the draw. -/
theorem resetHoldsTheSpecValues : Obligations.ResetHoldsTheSpecValues :=
  ⟨rfl, rfl, rfl, rfl, rfl, rfl, rfl, rfl, ⟨rfl, rfl⟩, fun _ => rfl⟩

/-- Settles O2: the listed reset is the next step, on the state less the list's head. -/
theorem resetAbandonsTheOperationAndKeepsMemory : Obligations.ResetAbandonsTheOperationAndKeepsMemory := by
  intro s rest h
  have hnext : nextInput s = .reset := by rw [nextInput, h]
  rw [step_of_reset hnext, consumeInput_of_pending h]
  rfl

/-- Settles O7: the row replies the code's number, and the code of Idle is 0. -/
theorem stateReadsZeroExactlyWhenIdle : Obligations.StateReadsZeroExactlyWhenIdle := by
  intro d s
  refine ⟨rfl, ?_⟩
  rw [isIdle_iff]
  exact BitVec.toNat_inj (y := PipelineState.idle.code)

/-- Settles O8: both rows reply 0. -/
theorem startAndUnmappedReadZero : Obligations.StartAndUnmappedReadZero := fun _ _ _ => ⟨rfl, rfl⟩

/-- Settles O16: both rows are Writes without an effect. -/
theorem stateAndUnmappedWritesDoNothing : Obligations.StateAndUnmappedWritesDoNothing :=
  fun _ _ s => ⟨gatedWrite_id s, gatedWrite_id s⟩

/-- Settles O13: while Idle the Write stores the masked data, which the Read that follows returns. -/
theorem registerRoundTrip : Obligations.RegisterRoundTrip := by
  intro r v d s rest hr hidle hpending
  have hidle' : State.isIdle { s with pending := .host tagRead r.addr d :: rest } = true := hidle
  have hwrite := step_of_host hpending
  rcases hr with rfl | rfl | rfl
  · have hstored := (exec_wrRdAddr v _).trans (gatedWrite_of_idle _ hidle')
    refine ⟨_, _, hwrite.trans hstored, (step_of_host rfl).trans rfl, ?_⟩
    exact maskToRegister_toNat v
  · have hstored := (exec_wrWrAddr v _).trans (gatedWrite_of_idle _ hidle')
    refine ⟨_, _, hwrite.trans hstored, (step_of_host rfl).trans rfl, ?_⟩
    exact maskToRegister_toNat v
  · have hstored := (exec_wrLen v _).trans (gatedWrite_of_idle _ hidle')
    refine ⟨_, _, hwrite.trans hstored, (step_of_host rfl).trans rfl, ?_⟩
    exact maskToRegister_toNat v

/-- Settles O18, by the kinds of host transaction: a returned value, a refusal, a start trigger, a register's store. -/
theorem macroStepChangesOnlyWhatItMay : Obligations.MacroStepChangesOnlyWhatItMay := by
  intro c a d s t h
  rcases transaction_cases h with
    ⟨v, -, rfl⟩ | ⟨hc, rfl⟩ | ⟨hc, hi, ⟨ha, hd, rfl⟩ | ⟨-, rfl⟩ | ⟨-, rfl⟩ | ⟨-, rfl⟩⟩
  case inr.inl => exact ⟨rfl, rfl, rfl, rfl, rfl, rfl, .inr hc, .inl ⟨rfl, rfl, rfl⟩⟩
  case inr.inr.inl =>
    refine ⟨rfl, rfl, rfl, rfl, rfl, rfl, .inl rfl, .inr ⟨hc, ha, hd, hi, rfl, rfl, ?_⟩⟩
    change hashMsgAtStart s = _ ∧ _ ∨ hashMsgAtStart s = _ ∧ _
    cases hreset : Config.hashResetOnStart <;> simp [hashMsgAtStart, hreset]
  all_goals exact ⟨rfl, rfl, rfl, rfl, rfl, rfl, .inl rfl, .inl ⟨rfl, rfl, rfl⟩⟩

/-- Settles O31: the transaction is the list's head. -/
theorem stepRunsTheTransaction : Obligations.StepRunsTheTransaction := fun _ _ _ _ _ => step_of_host

/-- Settles O32: a pipeline state's code selects its operation, and with nothing pending the step is that of a listed micro
step. -/
theorem stepRunsTheSelectedMicroOperation : Obligations.StepRunsTheSelectedMicroOperation := by
  refine ⟨fun p s rest hpending hcode => ?_, fun s hnone => ?_⟩
  · rw [step_of_tick hpending, hcode]
    cases p <;> rfl
  · have hlisted : step { s with pending := [.tick] } = exec (decodeMicro s.state) { s with pending := [] } :=
      step_of_tick rfl
    rw [step_of_nothing_pending hnone, hlisted, ← hnone]

end Sys2Proof.Machine
end
